-- ==== Sys2Proof/Word.lean ====
section
/-! DEFINITION. The words of the KF1600 engine: a lane, a byte, a command word, and the 25-lane Keccak state value. -/

namespace Sys2Proof

/-- A lane: one unsigned 64-bit word; bit z has weight 2^z (R12). -/
abbrev Lane := BitVec 64

/-- One byte of DATA, of OUT or of the state byte view (R40). -/
abbrev Byte := BitVec 8

/-- The 32-bit command word W (R60, R63). -/
abbrev CommandWord := BitVec 32

/-- The 32-bit STATUS word a response carries (R27). -/
abbrev StatusWord := BitVec 32

/-- A whole 1600-bit state value: exactly 25 lanes, lane (x, y) at index x + 5y (R14, R20, R21). -/
abbrev Lanes := Vector Lane 25

end Sys2Proof
end

