-- ==== Sys2Proof/Syntax.lean ====
section
/-! DEFINITION. The instructions (commands) of the KF1600 engine, one constructor per row of spec/opcode_table.json, and the command a host issues. -/

namespace Sys2Proof

/-- What a command word says (R65). The lane count N is kept as the number the word carries: every value 0..31
decodes, and a value outside 1..25 faults at execution (R64). DATA is no part of the word (R71). -/
inductive Instr where
  /-- INIT, OP 0x1: zero the state (R80). -/
  | init
  /-- PERMUTE, OP 0x2: Keccak-f[1600] (R120). -/
  | permute
  /-- ABSORB N, OP 0x3: XOR N data lanes in, then permute (R140). -/
  | absorb (n : Nat)
  /-- XOR_LANES N, OP 0x4: the XOR without the permutation (R150). -/
  | xorLanes (n : Nat)
  /-- EXTRACT N, OP 0x5: the first N lanes as bytes (R160). -/
  | extract (n : Nat)
  /-- ABSORB576, OP 0x6: absorb 9 lanes (R142). -/
  | absorb576
  /-- ABSORB832, OP 0x7: absorb 13 lanes (R143). -/
  | absorb832
  /-- ABSORB1024, OP 0x8: absorb 16 lanes (R144). -/
  | absorb1024
  /-- ABSORB1088, OP 0x9: absorb 17 lanes (R145). -/
  | absorb1088
  /-- ABSORB1152, OP 0xA: absorb 18 lanes (R146). -/
  | absorb1152
  /-- ABSORB1344, OP 0xB: absorb 21 lanes (R147). -/
  | absorb1344
  deriving DecidableEq, Repr

/-- A command: the pair (W, DATA) the host presents (R60). -/
structure Command where
  word : CommandWord
  data : List Byte
  deriving DecidableEq, Repr

end Sys2Proof
end

