-- ==== Sys2Proof/WellFormed.lean ====
section
/-! DEFINITION. Which instructions the encoding can hold, which lane counts may execute, and which commands a host may present. -/

namespace Sys2Proof

/-- The content of the N field, W[8:4], of the instruction's word: 0 where the field is reserved (R63, R64, R65). -/
def Instr.laneField : Instr → Nat
  | .init => 0
  | .permute => 0
  | .absorb n => n
  | .xorLanes n => n
  | .extract n => n
  | .absorb576 => 0
  | .absorb832 => 0
  | .absorb1024 => 0
  | .absorb1088 => 0
  | .absorb1152 => 0
  | .absorb1344 => 0

/-- The encoding can hold the instruction: N fits the 5 bits W[8:4], "unsigned, 0..31 as encoded" (R63). -/
abbrev Instr.WellFormed (i : Instr) : Prop := i.laneField < 32

/-- The lane count may execute: 1..25 for ABSORB, XOR_LANES and EXTRACT; no other command has one (R64, R65). -/
def Instr.laneCountLegal : Instr → Bool
  | .init => true
  | .permute => true
  | .absorb n => 1 ≤ n && n ≤ 25
  | .xorLanes n => 1 ≤ n && n ≤ 25
  | .extract n => 1 ≤ n && n ≤ 25
  | .absorb576 => true
  | .absorb832 => true
  | .absorb1024 => true
  | .absorb1088 => true
  | .absorb1152 => true
  | .absorb1344 => true

/-- A command the interface can carry: "DATA is a byte string of length 0 to 200" (R60; log entry 5). -/
abbrev Command.WellFormed (c : Command) : Prop := c.data.length ≤ 200

end Sys2Proof
end

