-- ==== Sys2Proof/Decode.lean ====
section
/-! DEFINITION. The decoder, total on every 32-bit word (R70), and after it the encoder, both from the opcode map (R63 to R65). -/

namespace Sys2Proof

/-- Why a word is no instruction (R66, R67). -/
inductive DecodeError where
  /-- OP is 0x0 or 0xC..0xF (R66). -/
  | illegalOpcode
  /-- W[31:9] is not 0, or the reserved N field of INIT, PERMUTE or a fixed-width ABSORB is not 0 (R67). -/
  | reservedNonzero
  deriving DecidableEq, Repr

/-- What the decoder answers: an instruction, or R70's `Illegal(cause)`. -/
inductive Decoded where
  | instr (i : Instr)
  | illegal (e : DecodeError)
  deriving DecidableEq, Repr

/-- OP = W[3:0] (R63). -/
def opField (w : CommandWord) : Nat := (w.extractLsb' 0 4).toNat

/-- N = zext(W[8:4]) (R63, R64). -/
def laneCountField (w : CommandWord) : Nat := (w.extractLsb' 4 5).toNat

/-- RSVD = W[31:9] (R63). -/
def reservedField (w : CommandWord) : Nat := (w.extractLsb' 9 23).toNat

/-- An opcode whose N field is reserved: any value but 0 is RESERVED_NONZERO (R67). -/
def decodeBare (n : Nat) (i : Instr) : Decoded :=
  if n = 0 then .instr i else .illegal .reservedNonzero

/-- The row of the opcode map that OP selects (R65, R66). -/
def decodeOp (op n : Nat) : Decoded :=
  match op with
  | 0x1 => decodeBare n .init
  | 0x2 => decodeBare n .permute
  | 0x3 => .instr (.absorb n)
  | 0x4 => .instr (.xorLanes n)
  | 0x5 => .instr (.extract n)
  | 0x6 => decodeBare n .absorb576
  | 0x7 => decodeBare n .absorb832
  | 0x8 => decodeBare n .absorb1024
  | 0x9 => decodeBare n .absorb1088
  | 0xA => decodeBare n .absorb1152
  | 0xB => decodeBare n .absorb1344
  | _ => .illegal .illegalOpcode

/-- The decoder of R70, its checks in R182's order. -/
def decode (w : CommandWord) : Decoded :=
  if opField w = 0x0 ∨ 0xC ≤ opField w then .illegal .illegalOpcode
  else if reservedField w ≠ 0 then .illegal .reservedNonzero
  else decodeOp (opField w) (laneCountField w)

/-- The opcode of each instruction (R65). -/
def Instr.opcode : Instr → Nat
  | .init => 0x1
  | .permute => 0x2
  | .absorb _ => 0x3
  | .xorLanes _ => 0x4
  | .extract _ => 0x5
  | .absorb576 => 0x6
  | .absorb832 => 0x7
  | .absorb1024 => 0x8
  | .absorb1088 => 0x9
  | .absorb1152 => 0xA
  | .absorb1344 => 0xB

/-- The word of an instruction: "OP OR (N << 4)", every other bit 0 (R63, R72). -/
def encode (i : Instr) : CommandWord :=
  BitVec.ofNat 32 i.opcode ||| (BitVec.ofNat 32 i.laneField <<< 4)

/-- The opcode table's numbering is the word's own: bit 0 is the least significant bit of W. A table row is at
most 32 bits, and no longer command exists (R71; log entry 9). -/
def decodeTableWord (nbits w : Nat) : Option Instr :=
  if 32 < nbits ∨ 2 ^ nbits ≤ w then none
  else
    match decode (BitVec.ofNat 32 w) with
    | .instr i => some i
    | .illegal _ => none

end Sys2Proof
end

