-- ==== Sys2Proof/Config.lean ====
section
/-! DEFINITION. What the spec leaves open, as constants with no body: nothing in Lean can evaluate them or prove a value of them. -/

namespace Sys2Proof

/-- The content lane `lane` of S happens to hold after reset number `resets` of engine instance `inst`.
R34: "no value: unspecified ... a model gives S no value, not zero". A FREE VALUE: log entry 1 (DESIGN CHOICE). -/
opaque Config.resetLane (inst resets lane : Nat) : Lane

/-- NUM_ENGINES, how many independent engine instances a platform has: an open parameter (R11, R196; log entry 7). -/
opaque Config.numEngines : Nat

end Sys2Proof
end

