-- ==== Sys2Proof/Machine/State.lean ====
section
/-! DEFINITION. The state of one KF1600 engine with its host interface: the tuple (S, INIT_DONE, FAULT, CAUSE) of R33,
the host's pending input and the responses given. Plain data. -/

namespace Sys2Proof.Machine

/-- The cause codes of STATUS.CAUSE (R180). -/
inductive Cause where
  /-- Code 0: no fault since reset. -/
  | none
  /-- Code 1. -/
  | illegalOpcode
  /-- Code 2. -/
  | reservedNonzero
  /-- Code 3. -/
  | laneCountRange
  /-- Code 4. -/
  | dataLength
  /-- Code 5. -/
  | notInitialized
  deriving DecidableEq, Repr

/-- Why a RUN is judged to have failed. No step answers it: a faulted command is a next state with FAULT = 1 (R181). -/
inductive Fault where
  /-- Raised by `runVerdict` of Sys2Proof/Safety.lean alone, when any state of a run has STATUS.FAULT = 1: "A faulted command
  is a fault outcome of the run" (R184; log entry 2). Safe: a claim about a run's success cannot be proved through it. -/
  | commandFaulted (cause : Cause)
  deriving DecidableEq, Repr

/-- Why an instruction has no meaning. -/
inductive Refusal where
  /-- Raised by `exec` for an instruction with no meaning yet; no arm of this model raises it. Safe. -/
  | notModelled (mnemonic : String)
  deriving DecidableEq, Repr

/-- What the host or the outside world does next (R60, R200; log entry 3). -/
inductive HostEvent where
  /-- The host presents a command (R60). -/
  | command (c : Command)
  /-- Reset arrives between two commands (R200). -/
  | reset
  /-- The host presents a command and reset arrives while it executes: no response, its effect is lost (R200). -/
  | commandCutByReset (c : Command)
  deriving DecidableEq, Repr

/-- A response: the pair (STATUS, OUT) (R61). -/
structure Response where
  status : StatusWord
  out : List Byte
  deriving DecidableEq, Repr

/-- Where the next free value comes from: this engine's instance number and how often it has been reset.
The MODEL's own field, no state of the spec's (log entry 1); no command reads or writes it. -/
structure FreeSource where
  inst : Nat
  resets : Nat
  deriving DecidableEq, Repr

/-- One engine and its host interface. The first four fields are the complete architectural state (R33). -/
structure State where
  /-- The state array S: 25 lanes of 64 bits (R20). -/
  lanes : Lanes
  /-- STATUS[0] (R27, R28). -/
  initDone : Bool
  /-- STATUS[1], sticky (R27, R29). -/
  fault : Bool
  /-- STATUS[7:4], sticky (R27, R29, R180). -/
  cause : Cause
  /-- What the host does, in issue order; a command at the head is the one being executed. An input, not engine
  state (R30; log entry 3). -/
  input : List HostEvent
  /-- Every response given so far, the newest first (R61; log entry 4). No command reads it. -/
  responses : List Response
  /-- The model's source of free values (log entry 1). -/
  source : FreeSource
  deriving DecidableEq, Repr

/-- What S holds after a reset: unspecified, a free value in every lane (R34; log entry 1). -/
def freshLanes (src : FreeSource) : Lanes :=
  Vector.ofFn fun i => Config.resetLane src.inst src.resets i.val

/-- Engine instance `inst` at power-on: the reset values of R34, no input, no response. -/
def State.powerOn (inst : Nat) : State where
  lanes := freshLanes ⟨inst, 0⟩
  initDone := false
  fault := false
  cause := .none
  input := []
  responses := []
  source := ⟨inst, 0⟩

/-- The machine right after reset (R34, R200). -/
def State.reset : State := State.powerOn 0

end Sys2Proof.Machine
end

