-- ==== Sys2Proof/Machine/Keccak.lean ====
section
/-! DEFINITION. Keccak-f[1600]: the five sub-steps, the round and the 24-round permutation (R100 to R113). -/

namespace Sys2Proof.Machine

/-- rol64(v, n): circular rotation left by n (R13). -/
def rol64 (v : Lane) (n : Nat) : Lane := v.rotateLeft n

/-- Index x + 5y of the grid position (x, y), coordinates taken mod 5 (R13, R14). -/
def gridIndex (x y : Nat) : Fin 25 := ⟨x % 5 + 5 * (y % 5), by omega⟩

/-- A[x, y] = A[x + 5y] (R14); coordinates are taken mod 5. -/
def lane (a : Lanes) (x y : Nat) : Lane := a.get (gridIndex x y)

/-- The array whose lane at (x, y) is f x y, for x, y in [0,5) (R14, R21). -/
def buildLanes (f : Nat → Nat → Lane) : Lanes :=
  #v[f 0 0, f 1 0, f 2 0, f 3 0, f 4 0,
     f 0 1, f 1 1, f 2 1, f 3 1, f 4 1,
     f 0 2, f 1 2, f 2 2, f 3 2, f 4 2,
     f 0 3, f 1 3, f 2 3, f 3 3, f 4 3,
     f 0 4, f 1 4, f 2 4, f 3 4, f 4 4]

/-- The five column values g 0, ..., g 4. -/
def buildColumns (g : Nat → Lane) : Vector Lane 5 := #v[g 0, g 1, g 2, g 3, g 4]

/-- C[x], the parity of column x (R101). -/
def columnParity (a : Lanes) : Vector Lane 5 :=
  buildColumns fun x => lane a x 0 ^^^ lane a x 1 ^^^ lane a x 2 ^^^ lane a x 3 ^^^ lane a x 4

/-- D[x] = C[x-1] ^ rol64(C[x+1], 1), from the column parities (R101). -/
def thetaEffect (c : Vector Lane 5) : Vector Lane 5 :=
  buildColumns fun x => c.get (Fin.ofNat 5 (x + 4)) ^^^ rol64 (c.get (Fin.ofNat 5 (x + 1))) 1

/-- theta: XOR D[x] into every lane of column x (R101). -/
def theta (a : Lanes) : Lanes :=
  buildLanes fun x y => lane a x y ^^^ (thetaEffect (columnParity a)).get (Fin.ofNat 5 x)

/-- ROT, the rotation offset of each lane, by lane index (R104). -/
def rotationTable : Vector Nat 25 :=
  #v[ 0,  1, 62, 28, 27,
     36, 44,  6, 55, 20,
      3, 10, 43, 25, 39,
     41, 45, 15, 21,  8,
     18,  2, 61, 56, 14]

/-- rho: rotate every lane left by its offset ROT[x, y] (R103). -/
def rho (a : Lanes) : Lanes :=
  buildLanes fun x y => rol64 (lane a x y) (rotationTable.get (gridIndex x y))

/-- pi: A'[x, y] = A[(x + 3y) mod 5, x] (R106). -/
def pi (a : Lanes) : Lanes := buildLanes fun x y => lane a (x + 3 * y) x

/-- chi: A'[x, y] = A[x, y] ^ (~A[x+1, y] & A[x+2, y]), every read from the old A (R109). -/
def chi (a : Lanes) : Lanes :=
  buildLanes fun x y => lane a x y ^^^ (~~~ lane a (x + 1) y &&& lane a (x + 2) y)

/-- RC as R111's table prints it: row k holds RC[k], RC[k + 8] and RC[k + 16]. -/
def roundConstantRows : Vector (Vector Lane 3) 8 :=
  #v[#v[0x0000000000000001, 0x000000000000008A, 0x8000000000008002],
     #v[0x0000000000008082, 0x0000000000000088, 0x8000000000000080],
     #v[0x800000000000808A, 0x0000000080008009, 0x000000000000800A],
     #v[0x8000000080008000, 0x000000008000000A, 0x800000008000000A],
     #v[0x000000000000808B, 0x000000008000808B, 0x8000000080008081],
     #v[0x0000000080000001, 0x800000000000008B, 0x8000000000008080],
     #v[0x8000000080008081, 0x8000000000008089, 0x0000000080000001],
     #v[0x8000000000008009, 0x8000000000008003, 0x8000000080008008]]

/-- RC[ir], read from its row and column of the table (R111). -/
def roundConstant (ir : Fin 24) : Lane :=
  (roundConstantRows.get ⟨ir.val % 8, by omega⟩).get ⟨ir.val / 8, by omega⟩

/-- iota: XOR the round's constant into lane (0, 0) (R111). -/
def iota (a : Lanes) (ir : Fin 24) : Lanes := a.set 0 (a[0] ^^^ roundConstant ir)

/-- One round: theta, rho, pi, chi, iota in that order (R100). -/
def keccakRound (a : Lanes) (ir : Fin 24) : Lanes := iota (chi (pi (rho (theta a)))) ir

/-- Keccak-f[1600]: 24 rounds in increasing round index (R113). -/
def keccakF1600 (a : Lanes) : Lanes := (List.finRange 24).foldl keccakRound a

/-- The state in which every lane is v. -/
def constLanes (v : Lane) : Lanes := Vector.replicate 25 v

end Sys2Proof.Machine
end

