-- ==== Sys2Proof/Machine/Flags.lean ====
section
/-! DEFINITION. The STATUS register: its fields stored once in State, its 32-bit word computed from them (R27). -/

namespace Sys2Proof.Machine

/-- The code STATUS.CAUSE holds for each cause (R180). -/
def Cause.code : Cause → BitVec 4
  | .none => 0
  | .illegalOpcode => 1
  | .reservedNonzero => 2
  | .laneCountRange => 3
  | .dataLength => 4
  | .notInitialized => 5

/-- The STATUS word: reserved [31:8] = 0, CAUSE [7:4], reserved [3:2] = 0, FAULT [1], INIT_DONE [0] (R27; log entry 8). -/
def packStatus (initDone fault : Bool) (cause : Cause) : StatusWord :=
  0#24 ++ cause.code ++ 0#2 ++ BitVec.ofBool fault ++ BitVec.ofBool initDone

/-- STATUS as the engine holds it now (R27, R61). -/
def statusWord (s : State) : StatusWord := packStatus s.initDone s.fault s.cause

end Sys2Proof.Machine
end

