-- ==== Sys2Proof/Machine/Codec.lean ====
section
/-! DEFINITION. The little-endian lane codec and the byte views (R15, R41 to R47). -/

namespace Sys2Proof.Machine

/-- The unsigned number whose little-endian byte string is given: byte k has weight 2^(8k) (R15, R44). -/
def leNat : List Byte → Nat
  | [] => 0
  | b :: bs => b.toNat + 2 ^ 8 * leNat bs

/-- Eight bytes become one lane, least-significant byte first (R44). -/
def bytesToLane (bs : List Byte) : Lane := BitVec.ofNat 64 (leNat bs)

/-- One lane becomes eight bytes: byte k is L[8k+7:8k] (R45). -/
def laneToBytes (l : Lane) : List Byte := (List.range 8).map fun k => l.extractLsb' (8 * k) 8

/-- MemRead(addr, n) on a byte string: n bytes from offset addr, little-endian (R15). -/
def memRead (data : List Byte) (addr n : Nat) : Nat := leNat ((data.drop addr).take n)

/-- Lane i of a byte interface: the eight bytes at offsets [8i, 8i+8) (R42, R141). -/
def dataLane (data : List Byte) (i : Nat) : Lane := BitVec.ofNat 64 (memRead data (8 * i) 8)

/-- The first n lanes as bytes, each lane little-endian at offset 8i: the MemWrite loop of R160. -/
def leadingBytes (a : Lanes) (n : Nat) : List Byte := (a.toList.take n).flatMap laneToBytes

/-- The state byte view: laneToBytes(S[0]), ..., laneToBytes(S[24]) one after the other (R41). -/
def stateBytes (a : Lanes) : List Byte := a.toList.flatMap laneToBytes

/-- StateByte(k) = S[k div 8][8*(k mod 8)+7 : 8*(k mod 8)], for k in [0,199] (R41). -/
def stateByte (a : Lanes) (k : Nat) : Byte := (a.getD (k / 8) 0).extractLsb' (8 * (k % 8)) 8

end Sys2Proof.Machine
end

