-- ==== Sys2Proof/Machine/Operands.lean ====
section
/-! DEFINITION. The operand of a command: its DATA string, the length DATA must have, and the XOR of DATA lanes into S (R62, R69, R141). -/

namespace Sys2Proof.Machine

/-- DATA of the command being executed: the host presents it with the command and the engine does not keep it (R30, R62). -/
def dataOperand (s : State) : List Byte :=
  match s.input with
  | .command c :: _ => c.data
  | _ => []

/-- L, the number of bytes a command consumes (R65, R69). -/
def dataLength : Instr → Nat
  | .init => 0
  | .permute => 0
  | .absorb n => 8 * n
  | .xorLanes n => 8 * n
  | .extract _ => 0
  | .absorb576 => 8 * 9
  | .absorb832 => 8 * 13
  | .absorb1024 => 8 * 16
  | .absorb1088 => 8 * 17
  | .absorb1152 => 8 * 18
  | .absorb1344 => 8 * 21

/-- XorLanes(S, DATA, N): XOR data lane i into lane i for i in [0, N); lanes N..24 keep their value (R141). -/
def xorDataLanes (a : Lanes) (data : List Byte) (n : Nat) : Lanes :=
  Vector.ofFn fun i => if i.val < n then a[i] ^^^ dataLane data i.val else a[i]

/-- The command an opcode-table word stands for, its DATA operand all zeros and of the length R69 requires
(none for a word that is no instruction; never over R60's 200 bytes). -/
def tableCommand (nbits w : Nat) : Command :=
  let word : CommandWord := BitVec.ofNat 32 (w % 2 ^ nbits)
  let len :=
    match decode word with
    | .instr i => min 200 (dataLength i)
    | .illegal _ => 0
  ⟨word, List.replicate len 0⟩

end Sys2Proof.Machine
end

