-- ==== Sys2Proof/Machine/Ops.lean ====
section
/-! DEFINITION. The shared operations: responding, taking a fault, being rejected, the operand checks in their priority order, and reset. -/

namespace Sys2Proof.Machine

/-- The input once the command at its head has been executed; DATA and W do not survive it (R30). -/
def retireCommand : List HostEvent → List HostEvent
  | .command _ :: rest => rest
  | q => q

/-- Write all of S (R80, R120, R141). -/
def State.withLanes (a : Lanes) (s : State) : State := { s with lanes := a }

/-- STATUS.INIT_DONE <- 1 (R28). -/
def State.markInitialised (s : State) : State := { s with initDone := true }

/-- STATUS.FAULT <- 1 and STATUS.CAUSE <- c (R181). -/
def State.recordFault (c : Cause) (s : State) : State := { s with fault := true, cause := c }

/-- Give the response (STATUS after the command's effect, OUT) and finish the command (R61). -/
def respond (out : List Byte) (s : State) : State :=
  { s with input := retireCommand s.input, responses := ⟨statusWord s, out⟩ :: s.responses }

/-- A command on an engine whose FAULT is 1: respond (STATUS, empty); nothing changes, CAUSE keeps the first cause (R181). -/
def rejectCommand (s : State) : State := respond [] s

/-- TAKING A FAULT (R181): on a faulted engine the command is only rejected; else FAULT and CAUSE are written, S and
INIT_DONE keep their value, and the response is (STATUS, empty). There is no return from a fault: only reset clears it (R183). -/
def takeFault (c : Cause) (s : State) : State :=
  if s.fault then rejectCommand s else respond [] (s.recordFault c)

/-- The decoder's two causes (R70, R180). -/
def decodeCause : DecodeError → Cause
  | .illegalOpcode => .illegalOpcode
  | .reservedNonzero => .reservedNonzero

/-- A check of R180: whether its condition holds, and the cause it reports. -/
structure Check where
  failed : Bool
  cause : Cause
  deriving DecidableEq, Repr

/-- LANE_COUNT_RANGE: N = 0 or N > 25 (R180). -/
def laneCountCheck (n : Nat) : Check := ⟨n == 0 || decide (25 < n), .laneCountRange⟩

/-- DATA_LENGTH: DATA is not exactly len bytes long (R69, R180). -/
def dataLengthCheck (s : State) (len : Nat) : Check := ⟨(dataOperand s).length != len, .dataLength⟩

/-- NOT_INITIALIZED: STATUS.INIT_DONE = 0 (R28, R180). -/
def initialisedCheck (s : State) : Check := ⟨!s.initDone, .notInitialized⟩

/-- The cause of the first check that fails, in the order listed (R182). -/
def firstCause : List Check → Option Cause
  | [] => none
  | k :: ks => if k.failed then some k.cause else firstCause ks

/-- R181 around every command: rejected if FAULT = 1; else the first failing check faults before any part of the
effect; else the effect, and the response. `out` reads the state the command starts from. -/
def runCommand (checks : List Check) (effect : State → State) (out : State → List Byte) (s : State) : State :=
  if s.fault then rejectCommand s
  else
    match firstCause checks with
    | some c => takeFault c s
    | none => respond (out s) (effect s)

/-- The OUT of every command but EXTRACT (R61). -/
def noOutput (_ : State) : List Byte := []

/-- The checks of a command that takes a lane count and consumes len bytes of DATA, in R182's order. -/
def laneCommandChecks (n len : Nat) (s : State) : List Check :=
  [laneCountCheck n, dataLengthCheck s len, initialisedCheck s]

/-- The checks of a command that has no lane count and reads S, in R182's order. -/
def plainCommandChecks (len : Nat) (s : State) : List Check :=
  [dataLengthCheck s len, initialisedCheck s]

/-- S <- KeccakF1600(XorLanes(S, DATA, k)) or any other function of S and DATA (R140). -/
def updateLanes (f : Lanes → List Byte → Lanes) (s : State) : State :=
  s.withLanes (f s.lanes (dataOperand s))

/-- Reset (R200): INIT_DONE, FAULT and CAUSE are 0, and S holds nothing known: a new free value in every lane (R34, log
entry 1). A command reset cuts off gives no response, and its effect is lost with S. -/
def resetEngine (s : State) : State :=
  { s with
    lanes := freshLanes ⟨s.source.inst, s.source.resets + 1⟩
    initDone := false
    fault := false
    cause := .none
    input := s.input.tail
    source := ⟨s.source.inst, s.source.resets + 1⟩ }

end Sys2Proof.Machine
end

