-- ==== Sys2Proof/Machine/Absorb.lean ====
section
/-! DEFINITION. The meanings of ABSORB, the six fixed-width absorbs and XOR_LANES (R140 to R151). -/

namespace Sys2Proof.Machine

/-- XorLanes(S, DATA, k) and then the permutation: what every absorb does to S (R140). -/
def absorbLanes (k : Nat) (a : Lanes) (data : List Byte) : Lanes := keccakF1600 (xorDataLanes a data k)

/-- A fixed-width absorb of k lanes: ABSORB's effect at k, with no lane-count check (R142 to R148). -/
def fixedAbsorb (i : Instr) (k : Nat) (s : State) : State :=
  runCommand (plainCommandChecks (dataLength i) s) (updateLanes (absorbLanes k)) noOutput s

/-- ABSORB N (R140). -/
def execAbsorb (n : Nat) (s : State) : Host.Outcome State Fault Refusal :=
  .next (runCommand (laneCommandChecks n (dataLength (.absorb n)) s) (updateLanes (absorbLanes n)) noOutput s)

/-- XOR_LANES N: the data XOR and nothing else (R150). -/
def execXorLanes (n : Nat) (s : State) : Host.Outcome State Fault Refusal :=
  .next (runCommand (laneCommandChecks n (dataLength (.xorLanes n)) s)
    (updateLanes fun a data => xorDataLanes a data n) noOutput s)

/-- ABSORB576: 9 lanes (R142). -/
def execAbsorb576 (s : State) : Host.Outcome State Fault Refusal := .next (fixedAbsorb .absorb576 9 s)

/-- ABSORB832: 13 lanes (R143). -/
def execAbsorb832 (s : State) : Host.Outcome State Fault Refusal := .next (fixedAbsorb .absorb832 13 s)

/-- ABSORB1024: 16 lanes (R144). -/
def execAbsorb1024 (s : State) : Host.Outcome State Fault Refusal := .next (fixedAbsorb .absorb1024 16 s)

/-- ABSORB1088: 17 lanes (R145). -/
def execAbsorb1088 (s : State) : Host.Outcome State Fault Refusal := .next (fixedAbsorb .absorb1088 17 s)

/-- ABSORB1152: 18 lanes (R146). -/
def execAbsorb1152 (s : State) : Host.Outcome State Fault Refusal := .next (fixedAbsorb .absorb1152 18 s)

/-- ABSORB1344: 21 lanes (R147). -/
def execAbsorb1344 (s : State) : Host.Outcome State Fault Refusal := .next (fixedAbsorb .absorb1344 21 s)

end Sys2Proof.Machine
end

