-- ==== Sys2Proof/Machine/Extract.lean ====
section
/-! DEFINITION. The meaning of EXTRACT (R160). -/

namespace Sys2Proof.Machine

/-- EXTRACT N: OUT is lanes 0..N-1 as 8N little-endian bytes; neither S nor STATUS is written (R160, R163). -/
def execExtract (n : Nat) (s : State) : Host.Outcome State Fault Refusal :=
  .next (runCommand (laneCommandChecks n (dataLength (.extract n)) s) id (fun s => leadingBytes s.lanes n) s)

end Sys2Proof.Machine
end

