-- ==== Sys2Proof/Machine/Init.lean ====
section
/-! DEFINITION. The meaning of INIT (R80). -/

namespace Sys2Proof.Machine

/-- INIT: every lane becomes 0 and INIT_DONE becomes 1. Only DATA_LENGTH is checked: INIT is legal before any INIT (R80). -/
def execInit (s : State) : Host.Outcome State Fault Refusal :=
  .next (runCommand [dataLengthCheck s (dataLength .init)]
    (fun s => (s.withLanes (constLanes 0)).markInitialised) noOutput s)

end Sys2Proof.Machine
end

