-- ==== Sys2Proof/Machine/Permute.lean ====
section
/-! DEFINITION. The meaning of PERMUTE (R120). -/

namespace Sys2Proof.Machine

/-- PERMUTE: S <- KeccakF1600(S) (R113, R120). -/
def execPermute (s : State) : Host.Outcome State Fault Refusal :=
  .next (runCommand (plainCommandChecks (dataLength .permute) s)
    (updateLanes fun a _ => keccakF1600 a) noOutput s)

end Sys2Proof.Machine
end

