-- ==== Sys2Proof/Machine/Dispatch.lean ====
section
/-! DEFINITION. One arm per instruction. -/

namespace Sys2Proof.Machine

def exec (i : Instr) (s : State) : Host.Outcome State Fault Refusal :=
  match i with
  | .init => Sys2Proof.Machine.execInit s
  | .permute => Sys2Proof.Machine.execPermute s
  | .absorb n => Sys2Proof.Machine.execAbsorb n s
  | .xorLanes n => Sys2Proof.Machine.execXorLanes n s
  | .extract n => Sys2Proof.Machine.execExtract n s
  | .absorb576 => Sys2Proof.Machine.execAbsorb576 s
  | .absorb832 => Sys2Proof.Machine.execAbsorb832 s
  | .absorb1024 => Sys2Proof.Machine.execAbsorb1024 s
  | .absorb1088 => Sys2Proof.Machine.execAbsorb1088 s
  | .absorb1152 => Sys2Proof.Machine.execAbsorb1152 s
  | .absorb1344 => Sys2Proof.Machine.execAbsorb1344 s

end Sys2Proof.Machine
end

