-- ==== Sys2Proof/Machine/Step.lean ====
section
/-! DEFINITION. One step of the engine: the next thing the host does, executed whole (R190). -/

namespace Sys2Proof.Machine

/-- One step. A command is decoded and executed as one atomic step (R190); a word that is no instruction takes the
decoder's fault (R70, R181); a reset resets (R200); with nothing to do the engine waits (log entry 3). -/
def step (s : State) : Host.Outcome State Fault Refusal :=
  match s.input with
  | [] => .next s
  | .reset :: _ => .next (resetEngine s)
  | .commandCutByReset _ :: _ => .next (resetEngine s)
  | .command c :: _ =>
    match decode c.word with
    | .instr i => exec i s
    | .illegal e => .next (takeFault (decodeCause e) s)

/-- The host presents the table's word, with a zero DATA operand of the right length, as its next command: the engine
fetches nothing, its program is the host's command order (R31; log entry 6). -/
def State.withFetchWord (s : State) (nbits w : Nat) : State :=
  { s with input := .command (tableCommand nbits w) :: s.input }

end Sys2Proof.Machine
end

