-- ==== Sys2Proof/Machine/Assembler.lean ====
section
/-! DEFINITION. The command assembler: its lines, the commands each expands to, and its text form (R72, R73; log entry 10). -/

namespace Sys2Proof.Machine

/-- One line of assembler: a command of R72 or a pseudo-instruction of R73. -/
inductive AsmLine where
  | init
  | permute
  | absorb (n : Nat) (data : List Byte)
  | xorLanes (n : Nat) (data : List Byte)
  | extract (n : Nat)
  | absorb576 (data : List Byte)
  | absorb832 (data : List Byte)
  | absorb1024 (data : List Byte)
  | absorb1088 (data : List Byte)
  | absorb1152 (data : List Byte)
  | absorb1344 (data : List Byte)
  /-- Pseudo-instruction: absorb r bits (R73). -/
  | absorbBits (r : Nat) (data : List Byte)
  /-- Pseudo-instruction: extract k bytes (R73). -/
  | extractBytes (k : Nat)
  /-- Pseudo-instruction: PERMUTE, then EXTRACT n (R73). -/
  | squeeze (n : Nat)
  deriving DecidableEq, Repr

/-- One command, unless its lane count is outside [1,25] or its data length is not R69's: then the line is rejected (R72). -/
def assembleCommand (i : Instr) (data : List Byte) : Option Command :=
  if i.laneCountLegal ∧ data.length = dataLength i then some ⟨encode i, data⟩ else none

/-- The instruction ABSORB_BITS r expands to: the fixed-width absorb where there is one, else ABSORB r/64 (R73). -/
def absorbBitsInstr (r : Nat) : Instr :=
  if r = 576 then .absorb576
  else if r = 832 then .absorb832
  else if r = 1024 then .absorb1024
  else if r = 1088 then .absorb1088
  else if r = 1152 then .absorb1152
  else if r = 1344 then .absorb1344
  else .absorb (r / 64)

/-- A line that is one command. -/
def assembleOne (i : Instr) (data : List Byte) : Option (List Command) := (assembleCommand i data).map fun c => [c]

/-- The commands a line stands for; none where the assembler rejects the line (R72, R73). -/
def assemble : AsmLine → Option (List Command)
  | .init => assembleOne .init []
  | .permute => assembleOne .permute []
  | .absorb n d => assembleOne (.absorb n) d
  | .xorLanes n d => assembleOne (.xorLanes n) d
  | .extract n => assembleOne (.extract n) []
  | .absorb576 d => assembleOne .absorb576 d
  | .absorb832 d => assembleOne .absorb832 d
  | .absorb1024 d => assembleOne .absorb1024 d
  | .absorb1088 d => assembleOne .absorb1088 d
  | .absorb1152 d => assembleOne .absorb1152 d
  | .absorb1344 d => assembleOne .absorb1344 d
  | .absorbBits r d => if r % 64 = 0 ∧ 64 ≤ r ∧ r ≤ 1600 then assembleOne (absorbBitsInstr r) d else none
  | .extractBytes k => if k % 8 = 0 ∧ 8 ≤ k ∧ k ≤ 200 then assembleOne (.extract (k / 8)) [] else none
  | .squeeze n =>
    match assembleCommand .permute [], assembleCommand (.extract n) [] with
    | some p, some e => some [p, e]
    | _, _ => none

/-- A space of the text form. -/
def isBlank (c : Char) : Bool := c == ' ' || c == '\t'

/-- Text without the spaces at its two ends. -/
def trimBlanks (cs : List Char) : List Char := ((cs.dropWhile isBlank).reverse.dropWhile isBlank).reverse

/-- Text cut at every separator. -/
def splitAtChar (sep : Char) : List Char → List (List Char)
  | [] => [[]]
  | c :: cs =>
    if c = sep then [] :: splitAtChar sep cs
    else
      match splitAtChar sep cs with
      | [] => [[c]]
      | w :: ws => (c :: w) :: ws

/-- "A lane count is a decimal integer" (R72). -/
def parseDecimal (cs : List Char) : Option Nat :=
  if cs.isEmpty || !cs.all Char.isDigit then none
  else some (cs.foldl (fun n c => 10 * n + (c.toNat - '0'.toNat)) 0)

/-- The value of a hex digit. -/
def hexDigit (c : Char) : Option Nat :=
  if '0' ≤ c ∧ c ≤ '9' then some (c.toNat - '0'.toNat)
  else if 'a' ≤ c ∧ c ≤ 'f' then some (c.toNat - 'a'.toNat + 10)
  else if 'A' ≤ c ∧ c ≤ 'F' then some (c.toNat - 'A'.toNat + 10)
  else none

/-- "two hex digits make one byte, in DATA order (byte 0 first)" (R72). -/
def parseHexDigits : List Char → Option (List Byte)
  | [] => some []
  | [_] => none
  | a :: b :: cs =>
    match hexDigit a, hexDigit b, parseHexDigits cs with
    | some h, some l, some bs => some (BitVec.ofNat 8 (16 * h + l) :: bs)
    | _, _, _ => none

/-- A data operand: x, a double quote, hex digits with spaces ignored, a double quote (R72). -/
def parseData : List Char → Option (List Byte)
  | 'x' :: '"' :: cs =>
    if cs.getLast? = some '"' then parseHexDigits (cs.dropLast.filter fun c => !isBlank c) else none
  | _ => none

/-- The two operands `n, x"..."`. -/
def parseCountAndData (f : Nat → List Byte → AsmLine) : List (List Char) → Option AsmLine
  | [n, d] =>
    match parseDecimal n, parseData d with
    | some n, some d => some (f n d)
    | _, _ => none
  | _ => none

/-- The one operand `n`. -/
def parseCount (f : Nat → AsmLine) : List (List Char) → Option AsmLine
  | [n] => (parseDecimal n).map f
  | _ => none

/-- The one operand `x"..."`. -/
def parseDataOnly (f : List Byte → AsmLine) : List (List Char) → Option AsmLine
  | [d] => (parseData d).map f
  | _ => none

/-- No operand. -/
def parseNoOperand (l : AsmLine) : List (List Char) → Option AsmLine
  | [] => some l
  | _ => none

/-- The operands each mnemonic takes (R72, R73). -/
def mnemonicTable : List (List Char × (List (List Char) → Option AsmLine)) :=
  [("INIT".toList, parseNoOperand .init),
   ("PERMUTE".toList, parseNoOperand .permute),
   ("ABSORB".toList, parseCountAndData .absorb),
   ("XOR_LANES".toList, parseCountAndData .xorLanes),
   ("EXTRACT".toList, parseCount .extract),
   ("ABSORB576".toList, parseDataOnly .absorb576),
   ("ABSORB832".toList, parseDataOnly .absorb832),
   ("ABSORB1024".toList, parseDataOnly .absorb1024),
   ("ABSORB1088".toList, parseDataOnly .absorb1088),
   ("ABSORB1152".toList, parseDataOnly .absorb1152),
   ("ABSORB1344".toList, parseDataOnly .absorb1344),
   ("ABSORB_BITS".toList, parseCountAndData .absorbBits),
   ("EXTRACT_BYTES".toList, parseCount .extractBytes),
   ("SQUEEZE".toList, parseCount .squeeze)]

/-- One line of text: "a mnemonic, optionally followed by operands. Mnemonics are case-insensitive" (R72). -/
def parseLine (text : List Char) : Option AsmLine :=
  let line := trimBlanks text
  let mnemonic := (line.takeWhile fun c => !isBlank c).map Char.toUpper
  let rest := trimBlanks (line.dropWhile fun c => !isBlank c)
  let operands := if rest.isEmpty then [] else (splitAtChar ',' rest).map trimBlanks
  match mnemonicTable.lookup mnemonic with
  | some parse => parse operands
  | none => none

/-- The commands one line of text stands for (R72, R73). -/
def assembleText (text : List Char) : Option (List Command) :=
  match parseLine text with
  | some l => assemble l
  | none => none

/-- A program: "one command per line" (R72); rejected if any line is. -/
def assembleProgram : List (List Char) → Option (List Command)
  | [] => some []
  | l :: ls =>
    match assembleText l, assembleProgram ls with
    | some cs, some rest => some (cs ++ rest)
    | _, _ => none

end Sys2Proof.Machine
end

