-- ==== Sys2Proof/Machine/Platform.lean ====
section
/-! DEFINITION. A platform of NUM_ENGINES independent engines (R57, R196). -/

namespace Sys2Proof.Machine

/-- The engines of a platform; each has its own S, STATUS and host interface (R196). -/
abbrev Platform := List State

/-- "All instances start in the reset state of rule R34" (R196); NUM_ENGINES is left open. -/
def platformReset : Platform := (List.range Config.numEngines).map State.powerOn

/-- Engine k of the platform takes one step; the others do nothing. Which engine steps next is the caller's choice:
instances run with no coordination (R57). With no engine k nothing happens. -/
def platformStep (p : Platform) (k : Nat) : Host.Outcome Platform Fault Refusal :=
  match p[k]? with
  | none => .next p
  | some s =>
    match step s with
    | .next t => .next (p.set k t)
    | .fault r => .fault r
    | .refused r => .refused r

end Sys2Proof.Machine
end

