-- ==== Sys2Proof/Safety.lean ====
section
/-! DEFINITION. What counts as a good state, a good response and a successful run, and the terms the claims use. -/

namespace Sys2Proof.Machine

/-- A response the engine may give: STATUS has only R27's legal values, FAULT = 1 exactly when CAUSE is not 0, and OUT is
whole lanes, at most 200 bytes, and empty for a faulted command or before any INIT (R27, R28, R49, R61). -/
def Response.WellFormed (r : Response) : Prop :=
  r.status.extractLsb' 2 2 = 0 ∧ r.status.extractLsb' 8 24 = 0 ∧
  (r.status.extractLsb' 4 4).toNat ≤ 5 ∧
  (r.status.getLsbD 1 = true ↔ r.status.extractLsb' 4 4 ≠ 0) ∧
  (∃ n, n ≤ 25 ∧ r.out.length = 8 * n) ∧
  (r.status.getLsbD 1 = true ∨ r.status.getLsbD 0 = false → r.out = [])

/-- The invariant every step keeps: CAUSE is 0 exactly while FAULT = 0 (R27), and every response given is well formed. -/
def Inv (s : State) : Prop :=
  (s.fault = true ↔ s.cause ≠ .none) ∧ ∀ r ∈ s.responses, r.WellFormed

/-- k steps of the engine, as `Host.Core.run` takes them (Sys2Proof/Laws/Run.lean proves the two equal). -/
def runSteps : Nat → State → Host.Outcome State Fault Refusal
  | 0, s => .next s
  | k + 1, s =>
    match step s with
    | .next t => runSteps k t
    | .fault r => .fault r
    | .refused r => .refused r

/-- R184: "A faulted command is a fault outcome of the run" (log entry 2). The verdict is a fault, with the first fault's
cause, as soon as a state of the run has FAULT = 1, and nothing later clears it, a reset included; a run is a success only
if no command of it faulted. -/
def runVerdict : Nat → State → Host.Outcome State Fault Refusal
  | 0, s => if s.fault then .fault (.commandFaulted s.cause) else .next s
  | k + 1, s =>
    if s.fault then .fault (.commandFaulted s.cause)
    else
      match step s with
      | .next t => runVerdict k t
      | .fault r => .fault r
      | .refused r => .refused r

/-- "The complete architectural state of one engine is the tuple (S, STATUS.INIT_DONE, STATUS.FAULT, STATUS.CAUSE)" (R33). -/
def archTuple (s : State) : Lanes × Bool × Bool × Cause := (s.lanes, s.initDone, s.fault, s.cause)

/-- No check of R180 can stop a command that reads S and consumes len bytes of DATA: the engine is not faulted, an INIT
has completed, and DATA has the right length. -/
def Ready (s : State) (len : Nat) : Prop :=
  s.fault = false ∧ s.initDone = true ∧ (dataOperand s).length = len

/-- One command was answered: exactly one response (the STATUS after it, OUT) was added, its command left the input, and
nothing else outside S and STATUS changed (R30, R61). -/
def Answered (s t : State) (out : List Byte) : Prop :=
  t.responses = ⟨statusWord t, out⟩ :: s.responses ∧ t.input = retireCommand s.input ∧ t.source = s.source

/-- No STATUS field changed (R27). -/
def SameStatus (s t : State) : Prop :=
  t.initDone = s.initDone ∧ t.fault = s.fault ∧ t.cause = s.cause

/-- The six fixed-width absorbs with their lane counts (R65, R142 to R147). -/
def fixedAbsorbs : List (Instr × Nat) :=
  [(.absorb576, 9), (.absorb832, 13), (.absorb1024, 16), (.absorb1088, 17), (.absorb1152, 18), (.absorb1344, 21)]

/-- The event is a command that reset does not cut off. -/
def HostEvent.isCommand : HostEvent → Bool
  | .command _ => true
  | .reset => false
  | .commandCutByReset _ => false

/-- The host presents instruction i with DATA (R60, R72). -/
def commandOf (i : Instr) (data : List Byte) : HostEvent := .command ⟨encode i, data⟩

/-- What any host can tell apart: STATUS, the input still to come, and S once an INIT has completed (R28, R34). -/
def SameVisible (s t : State) : Prop :=
  s.initDone = t.initDone ∧ s.fault = t.fault ∧ s.cause = t.cause ∧ s.input = t.input ∧
  (s.initDone = true → s.lanes = t.lanes)

/-- The bytes a command consumes, read off the opcode map by OP and N alone (R65, R69). -/
def consumedBytes (op n : Nat) : Nat :=
  if op = 3 ∨ op = 4 then 8 * n
  else if op = 6 then 72
  else if op = 7 then 104
  else if op = 8 then 128
  else if op = 9 then 136
  else if op = 10 then 144
  else if op = 11 then 168
  else 0

/-- The fault table read as a reference: the cause a command reports on an engine with FAULT = 0, straight from the
conditions of R180 on the word's bits, in R182's order; `none` where no condition holds. It shares nothing with the
decoder and the meanings. -/
def referenceCause (w : CommandWord) (len : Nat) (initDone : Bool) : Cause :=
  let op := w.toNat % 16
  let n := w.toNat / 16 % 32
  let counted := op = 3 ∨ op = 4 ∨ op = 5
  if op = 0 ∨ 12 ≤ op then .illegalOpcode
  else if w.toNat / 512 ≠ 0 ∨ (¬ counted ∧ n ≠ 0) then .reservedNonzero
  else if counted ∧ (n = 0 ∨ 25 < n) then .laneCountRange
  else if len ≠ consumedBytes op n then .dataLength
  else if op ≠ 1 ∧ initDone = false then .notInitialized
  else .none

end Sys2Proof.Machine
end

