-- ==== Sys2Proof/Certificates/Slice0/Obligations.lean ====
section
/-! DEFINITION. The statements for the provers. Each docstring names the rule of spec/ it formalises. -/

open Sys2Proof Sys2Proof.Machine

/-! ## Encoding -/

/-- R63 to R65, R70: decoding the word of any instruction whose N fits its field gives the instruction back. -/
def Obligations.DecodeOfEncode : Prop :=
  ∀ i : Instr, i.WellFormed → decode (encode i) = .instr i

/-- R63, R65, R68: a word that decodes is the word of exactly the instruction it decodes to, which is well formed. -/
def Obligations.EncodeOfDecode : Prop :=
  ∀ (w : CommandWord) (i : Instr), decode w = .instr i → encode i = w ∧ i.WellFormed

/-- R74's example words, written out from R63 to R65. -/
def Obligations.ExampleWordsDecode : Prop :=
  decode 0x00000113 = .instr (.absorb 17) ∧ decode 0x00000013 = .instr (.absorb 1) ∧
  decode 0x00000045 = .instr (.extract 4) ∧ decode 0x00000195 = .instr (.extract 25) ∧
  decode 0x00000024 = .instr (.xorLanes 2) ∧ decode 0x00000003 = .instr (.absorb 0) ∧
  decode 0x00000001 = .instr .init ∧ decode 0x00000002 = .instr .permute ∧
  decode 0x00000009 = .instr .absorb1088 ∧
  decode 0x00000012 = .illegal .reservedNonzero ∧ decode 0x0000000C = .illegal .illegalOpcode ∧
  decode 0x00000201 = .illegal .reservedNonzero ∧ decode 0x00000096 = .illegal .reservedNonzero

/-- R72: the words the assembler's command lines stand for, at every lane count the assembler accepts. -/
def Obligations.AssemblerWords : Prop :=
  assemble .init = some [⟨0x00000001, []⟩] ∧ assemble .permute = some [⟨0x00000002, []⟩] ∧
  ∀ (n : Nat) (d : List Byte), 1 ≤ n → n ≤ 25 →
    assemble (.extract n) = some [⟨0x00000005 ||| (BitVec.ofNat 32 n <<< 4), []⟩] ∧
    (d.length = 8 * n →
      assemble (.absorb n d) = some [⟨0x00000003 ||| (BitVec.ofNat 32 n <<< 4), d⟩] ∧
      assemble (.xorLanes n d) = some [⟨0x00000004 ||| (BitVec.ofNat 32 n <<< 4), d⟩]) ∧
    (d.length = 72 → assemble (.absorb576 d) = some [⟨0x00000006, d⟩]) ∧
    (d.length = 104 → assemble (.absorb832 d) = some [⟨0x00000007, d⟩]) ∧
    (d.length = 128 → assemble (.absorb1024 d) = some [⟨0x00000008, d⟩]) ∧
    (d.length = 136 → assemble (.absorb1088 d) = some [⟨0x00000009, d⟩]) ∧
    (d.length = 144 → assemble (.absorb1152 d) = some [⟨0x0000000A, d⟩]) ∧
    (d.length = 168 → assemble (.absorb1344 d) = some [⟨0x0000000B, d⟩])

/-- R72, R69: whatever line the assembler accepts, each of its commands decodes, has a lane count in range, DATA of
exactly the length it consumes, and fits the interface (R60). -/
def Obligations.AssembledCommandsPassOperandChecks : Prop :=
  ∀ (l : AsmLine) (cs : List Command), assemble l = some cs → cs ≠ [] ∧
    ∀ c ∈ cs, c.WellFormed ∧
      ∃ i, decode c.word = .instr i ∧ i.laneCountLegal = true ∧ c.data.length = dataLength i

/-- R73: what each pseudo-instruction expands to, and when it is rejected. -/
def Obligations.PseudoInstructionsExpand : Prop :=
  (∀ r d, assemble (.absorbBits r d) =
    if r % 64 = 0 ∧ 64 ≤ r ∧ r ≤ 1600 then
      (if r = 576 then assemble (.absorb576 d) else if r = 832 then assemble (.absorb832 d)
       else if r = 1024 then assemble (.absorb1024 d) else if r = 1088 then assemble (.absorb1088 d)
       else if r = 1152 then assemble (.absorb1152 d) else if r = 1344 then assemble (.absorb1344 d)
       else assemble (.absorb (r / 64) d))
    else none) ∧
  (∀ k, assemble (.extractBytes k) =
    if k % 8 = 0 ∧ 8 ≤ k ∧ k ≤ 200 then assemble (.extract (k / 8)) else none) ∧
  (∀ n, 1 ≤ n → n ≤ 25 →
    assemble (.squeeze n) = some [⟨encode .permute, []⟩, ⟨encode (.extract n), []⟩]) ∧
  (∀ n, n = 0 ∨ 25 < n → assemble (.squeeze n) = none)

/-! ## The lane codec and the byte views -/

/-- R44: bytesToLane is the little-endian sum, its byte k is b[k], and the rule's worked example. -/
def Obligations.BytesToLaneIsLittleEndianSum : Prop :=
  (∀ b : Vector Byte 8,
    (bytesToLane b.toList).toNat =
        b[0].toNat + b[1].toNat * 2 ^ 8 + b[2].toNat * 2 ^ 16 + b[3].toNat * 2 ^ 24 +
        b[4].toNat * 2 ^ 32 + b[5].toNat * 2 ^ 40 + b[6].toNat * 2 ^ 48 + b[7].toNat * 2 ^ 56 ∧
      ∀ k : Fin 8, (bytesToLane b.toList).extractLsb' (8 * k.val) 8 = b[k]) ∧
  bytesToLane [0x01, 0x02, 0x03, 0x04, 0x05, 0x06, 0x07, 0x08] = 0x0807060504030201

/-- R45: laneToBytes gives eight bytes, byte k being L[8k+7:8k], and the rule's worked example. -/
def Obligations.LaneToBytesAreTheLaneBytes : Prop :=
  (∀ l : Lane, (laneToBytes l).length = 8 ∧
    ∀ k, k < 8 → (laneToBytes l)[k]? = some (l.extractLsb' (8 * k) 8)) ∧
  laneToBytes 0xF1258F7940E1DDE7 = [0xE7, 0xDD, 0xE1, 0x40, 0x79, 0x8F, 0x25, 0xF1]

/-- R46, first direction: no lane is changed by going to bytes and back. -/
def Obligations.LaneSurvivesTheCodec : Prop :=
  ∀ l : Lane, bytesToLane (laneToBytes l) = l

/-- R46, second direction (the spec marks it as derived from R44 and R45). -/
def Obligations.BytesSurviveTheCodec : Prop :=
  ∀ b : List Byte, b.length = 8 → laneToBytes (bytesToLane b) = b

/-- R41: byte k of the state view is StateByte(k), lane i at bytes 8i..8i+7. -/
def Obligations.StateViewBytes : Prop :=
  ∀ a : Lanes, (stateBytes a).length = 200 ∧
    (∀ k, k < 200 → (stateBytes a)[k]? = some (stateByte a k)) ∧
    (∀ k (h : k < 200), stateByte a k = (a[k / 8]'(by omega)).extractLsb' (8 * (k % 8)) 8) ∧
    stateBytes a = a.toList.flatMap laneToBytes

/-! ## The round function and the permutation -/

/-- R101: theta, lane by lane, with the parities C and the effect D written out, and D bit by bit. -/
def Obligations.ThetaFormula : Prop :=
  ∀ a : Lanes, ∀ x < 5, ∀ y < 5,
    let c := fun x => lane a x 0 ^^^ lane a x 1 ^^^ lane a x 2 ^^^ lane a x 3 ^^^ lane a x 4
    let d := c ((x + 4) % 5) ^^^ rol64 (c ((x + 1) % 5)) 1
    lane (theta a) x y = lane a x y ^^^ d ∧
    ∀ z < 64, d.getLsbD z = ((c ((x + 4) % 5)).getLsbD z ^^ (c ((x + 1) % 5)).getLsbD ((z + 63) % 64))

/-- R102 (the spec marks it as derived): theta is linear, keeps states of zero parity, and is no involution. -/
def Obligations.ThetaLinearNotInvolutive : Prop :=
  (∀ a b : Lanes, theta (Vector.zipWith (· ^^^ ·) a b) = Vector.zipWith (· ^^^ ·) (theta a) (theta b)) ∧
  theta (constLanes 0) = constLanes 0 ∧
  (∀ a : Lanes,
    (∀ x < 5, lane a x 0 ^^^ lane a x 1 ^^^ lane a x 2 ^^^ lane a x 3 ^^^ lane a x 4 = 0) → theta a = a) ∧
  (let e : Lanes := (constLanes 0).set 0 1
   theta e ≠ e ∧ theta (theta e) ≠ e ∧ theta (theta e) ≠ theta e)

/-- R103 with R104's table and R13's rotation: bit z of a rotated lane is bit (z - ROT) mod 64 of the old one; the table by
index is the table by row; its entries are in [0,63], and exactly one, lane 0's, is 0. -/
def Obligations.RhoMovesBits : Prop :=
  (∀ a : Lanes, ∀ x < 5, ∀ y < 5, ∀ z < 64,
    (lane (rho a) x y).getLsbD z =
      (lane a x y).getLsbD ((z + 64 - ([[0, 1, 62, 28, 27], [36, 44, 6, 55, 20], [3, 10, 43, 25, 39],
        [41, 45, 15, 21, 8], [18, 2, 61, 56, 14]][y]!)[x]!) % 64)) ∧
  rotationTable.toList = [0, 1, 62, 28, 27, 36, 44, 6, 55, 20, 3, 10, 43, 25, 39, 41, 45, 15, 21, 8, 18, 2, 61, 56, 14] ∧
  ∀ i : Fin 25, rotationTable.get i < 64 ∧ (rotationTable.get i = 0 ↔ i = 0)

/-- R105: the rotation table is the one its generating walk gives: from (1, 0), ROT = (t+1)(t+2)/2 mod 64, then
(x, y) <- (y, (2x + 3y) mod 5), and ROT[0, 0] = 0. -/
def Obligations.RotationTableFollowsItsWalk : Prop :=
  rotationTable.get (gridIndex 0 0) = 0 ∧
  ∀ walk : Nat → Nat × Nat, walk 0 = (1, 0) →
    (∀ t, walk (t + 1) = ((walk t).2, (2 * (walk t).1 + 3 * (walk t).2) % 5)) →
    ∀ t < 24, rotationTable.get (gridIndex (walk t).1 (walk t).2) = (t + 1) * (t + 2) / 2 % 64

/-- R106: where pi takes each lane from, and where it moves each lane to. -/
def Obligations.PiMovesLanes : Prop :=
  ∀ a : Lanes, ∀ x < 5, ∀ y < 5,
    lane (pi a) x y = lane a ((x + 3 * y) % 5) x ∧ lane (pi a) y ((2 * x + 3 * y) % 5) = lane a x y

/-- R107, R108 (the spec marks both as derived): pi's index table, and rho and pi as one formula. -/
def Obligations.RhoThenPi : Prop :=
  (∀ a : Lanes, (pi a).toList = [0, 6, 12, 18, 24, 3, 9, 10, 16, 22, 1, 7, 13, 19, 20, 4, 5, 11, 17, 23, 2, 8, 14,
    15, 21].map fun i => a.getD i 0) ∧
  ∀ a : Lanes, ∀ x < 5, ∀ y < 5,
    lane (pi (rho a)) y ((2 * x + 3 * y) % 5) = rol64 (lane a x y) (rotationTable.get (gridIndex x y))

/-- R109: chi, lane by lane, every read from the old state. -/
def Obligations.ChiFormula : Prop :=
  ∀ a : Lanes, ∀ x < 5, ∀ y < 5,
    lane (chi a) x y = lane a x y ^^^ (~~~ lane a ((x + 1) % 5) y &&& lane a ((x + 2) % 5) y)

/-- R110 (the spec marks it as derived): chi acts on each row's five bits as the table CHI5, a permutation of [0,31];
it keeps the zero state and the all-ones state. -/
def Obligations.ChiRowTable : Prop :=
  let chi5 : List Nat := [0x00, 0x09, 0x12, 0x0B, 0x05, 0x0C, 0x16, 0x0F, 0x0A, 0x03, 0x18, 0x01, 0x0D, 0x04, 0x1E,
    0x07, 0x14, 0x15, 0x06, 0x17, 0x11, 0x10, 0x02, 0x13, 0x1A, 0x1B, 0x08, 0x19, 0x1D, 0x1C, 0x0E, 0x1F]
  let row := fun (a : Lanes) (y z : Nat) =>
    ((lane a 0 y).getLsbD z).toNat + 2 * ((lane a 1 y).getLsbD z).toNat + 4 * ((lane a 2 y).getLsbD z).toNat +
      8 * ((lane a 3 y).getLsbD z).toNat + 16 * ((lane a 4 y).getLsbD z).toNat
  (∀ a : Lanes, ∀ y < 5, ∀ z < 64, row (chi a) y z = chi5[row a y z]!) ∧
  chi5.Perm (List.range 32) ∧
  chi (constLanes 0) = constLanes 0 ∧ chi (constLanes (BitVec.allOnes 64)) = constLanes (BitVec.allOnes 64)

/-- R111: iota changes lane (0, 0) alone, by the round's constant, the constants laid out in the rule's own eight rows of
three. -/
def Obligations.IotaChangesLaneZeroOnly : Prop :=
  let table : List (List Lane) := [
    [0x0000000000000001, 0x000000000000008A, 0x8000000000008002],
    [0x0000000000008082, 0x0000000000000088, 0x8000000000000080],
    [0x800000000000808A, 0x0000000080008009, 0x000000000000800A],
    [0x8000000080008000, 0x000000008000000A, 0x800000008000000A],
    [0x000000000000808B, 0x000000008000808B, 0x8000000080008081],
    [0x0000000080000001, 0x800000000000008B, 0x8000000000008080],
    [0x8000000080008081, 0x8000000000008089, 0x0000000080000001],
    [0x8000000000008009, 0x8000000000008003, 0x8000000080008008]]
  ∀ (a : Lanes) (ir : Fin 24),
    (iota a ir)[0] = a[0] ^^^ (table[ir.val % 8]!)[ir.val / 8]! ∧
    ∀ i (h : i < 25), i ≠ 0 → (iota a ir)[i] = a[i]

/-- R112: the round constants are the ones the register x^8 + x^6 + x^5 + x^4 + 1 gives: with rc(t) bit 0 of x^t
reduced, RC[ir] has bit 2^j - 1 equal to rc(j + 7 ir) for j = 0..6, and every other bit 0. -/
def Obligations.RoundConstantsFollowTheirRegister : Prop :=
  ∀ x : Nat → Nat, x 0 = 1 →
    (∀ t, x (t + 1) = if 2 * x t < 256 then 2 * x t else (2 * x t) ^^^ 0x171) →
    (∀ ir : Fin 24, ∀ z < 64,
      (roundConstant ir).getLsbD z =
        (List.range 7).any fun j => z == 2 ^ j - 1 && (x (j + 7 * ir.val)).testBit 0) ∧
    roundConstant 5 = 0x0000000080000001 ∧ roundConstant 22 = 0x0000000080000001 ∧
    roundConstant 6 = 0x8000000080008081 ∧ roundConstant 20 = 0x8000000080008081

/-- R100 and R113: the permutation is the last of the states A(0), ..., A(24), each the round (theta, rho, pi, chi, iota in
this order) of the one before, in increasing round index. -/
def Obligations.PermutationIsTwentyFourRounds : Prop :=
  ∀ a : Lanes, ∃ states : Nat → Lanes, states 0 = a ∧
    (∀ ir : Fin 24, states (ir.val + 1) = iota (chi (pi (rho (theta (states ir.val))))) ir) ∧
    keccakF1600 a = states 24

/-- R114 (general knowledge of the spec's): theta, rho, pi, chi, each iota and the whole permutation are bijections. -/
def Obligations.PermutationIsBijective : Prop :=
  Function.Bijective theta ∧ Function.Bijective rho ∧ Function.Bijective pi ∧ Function.Bijective chi ∧
  (∀ ir, Function.Bijective fun a => iota a ir) ∧ Function.Bijective keccakF1600

/-! ## The results of the commands -/

/-- R141: what XorLanes does to each of the 25 lanes. -/
def Obligations.XorLanesChangesLeadingLanesOnly : Prop :=
  ∀ (a : Lanes) (data : List Byte) (n : Nat), 1 ≤ n → n ≤ 25 → data.length = 8 * n →
    ∀ i (h : i < 25),
      (i < n → (xorDataLanes a data n)[i] = a[i] ^^^ bytesToLane ((data.drop (8 * i)).take 8)) ∧
      (n ≤ i → (xorDataLanes a data n)[i] = a[i])

/-- R80: INIT completes on every engine that is not faulted, whatever S and INIT_DONE hold: all 25 lanes are 0, INIT_DONE is
1, FAULT and CAUSE are unchanged, and the response has an empty OUT. -/
def Obligations.InitZeroesTheState : Prop :=
  ∀ s : State, s.fault = false → dataOperand s = [] →
    ∃ t, exec .init s = .next t ∧ (∀ i (h : i < 25), t.lanes[i] = 0) ∧ t.initDone = true ∧
      t.fault = false ∧ t.cause = s.cause ∧ Answered s t []

/-- R120: PERMUTE on a ready engine applies Keccak-f[1600] to S and changes no STATUS field. -/
def Obligations.PermuteAppliesThePermutation : Prop :=
  ∀ s : State, Ready s 0 →
    ∃ t, exec .permute s = .next t ∧ t.lanes = keccakF1600 s.lanes ∧ SameStatus s t ∧ Answered s t []

/-- R140: ABSORB N on a ready engine XORs N data lanes in and then permutes. -/
def Obligations.AbsorbXorsThenPermutes : Prop :=
  ∀ (s : State) (n : Nat), 1 ≤ n → n ≤ 25 → Ready s (8 * n) →
    ∃ t, exec (.absorb n) s = .next t ∧ t.lanes = keccakF1600 (xorDataLanes s.lanes (dataOperand s) n) ∧
      SameStatus s t ∧ Answered s t []

/-- R142 to R147: each fixed-width absorb on a ready engine, at its own lane count. -/
def Obligations.FixedAbsorbsXorThenPermute : Prop :=
  ∀ p ∈ [(Instr.absorb576, 9), (Instr.absorb832, 13), (Instr.absorb1024, 16), (Instr.absorb1088, 17),
      (Instr.absorb1152, 18), (Instr.absorb1344, 21)],
    ∀ s : State, Ready s (8 * p.2) →
      ∃ t, exec p.1 s = .next t ∧ t.lanes = keccakF1600 (xorDataLanes s.lanes (dataOperand s) p.2) ∧
        SameStatus s t ∧ Answered s t []

/-- R150: XOR_LANES N on a ready engine XORs N data lanes in and does nothing else. -/
def Obligations.XorLanesXorsWithoutPermuting : Prop :=
  ∀ (s : State) (n : Nat), 1 ≤ n → n ≤ 25 → Ready s (8 * n) →
    ∃ t, exec (.xorLanes n) s = .next t ∧ t.lanes = xorDataLanes s.lanes (dataOperand s) n ∧
      SameStatus s t ∧ Answered s t []

/-- R160: EXTRACT N on a ready engine gives the first N lanes as 8N little-endian bytes and writes nothing. -/
def Obligations.ExtractReadsLeadingLanes : Prop :=
  ∀ (s : State) (n : Nat), 1 ≤ n → n ≤ 25 → Ready s 0 →
    ∃ t out, exec (.extract n) s = .next t ∧ archTuple t = archTuple s ∧ Answered s t out ∧
      out.length = 8 * n ∧
      ∀ k (h : k < 8 * n) (_ : n ≤ 25),
        out[k]? = some ((s.lanes[k / 8]'(by omega)).extractLsb' (8 * (k % 8)) 8)

/-- R161: EXTRACT 25 returns exactly the 200-byte state view. -/
def Obligations.FullExtractIsTheStateView : Prop :=
  ∀ s : State, Ready s 0 →
    ∃ t out, exec (.extract 25) s = .next t ∧ Answered s t out ∧ out.length = 200 ∧
      ∀ k < 200, out[k]? = some (stateByte s.lanes k)

/-! ## STATUS, faults and reset -/

/-- R27: the fields of the STATUS word, the reserved bits hardwired 0, the CAUSE codes of R180. -/
def Obligations.StatusWordFields : Prop :=
  ∀ s : State,
    (statusWord s).getLsbD 0 = s.initDone ∧ (statusWord s).getLsbD 1 = s.fault ∧
    (statusWord s).extractLsb' 2 2 = 0 ∧ (statusWord s).extractLsb' 8 24 = 0 ∧
    ((statusWord s).extractLsb' 4 4).toNat =
      match s.cause with
      | .none => 0
      | .illegalOpcode => 1
      | .reservedNonzero => 2
      | .laneCountRange => 3
      | .dataLength => 4
      | .notInitialized => 5

/-- R180, R181, R182 as one reference, for a command with ANY word and ANY DATA on ANY engine (CAUSE being 0 while FAULT is
0, the invariant). The CAUSE field of STATUS holds the cause's code. On a faulted engine the command is rejected: nothing
changes, OUT is empty. Else the first condition of the fault table that holds sets FAULT and CAUSE, S and INIT_DONE
unchanged, OUT empty. Where none holds the word decodes, and the command's own meaning runs without a fault. -/
def Obligations.CommandFaultsAsTheTableSays : Prop :=
  ∀ (s : State) (c : Command) (rest : List HostEvent),
    s.input = .command c :: rest → (s.fault = false → s.cause = .none) →
    let expected := referenceCause c.word c.data.length s.initDone
    ∃ t, step s = .next t ∧
      ((statusWord t).extractLsb' 4 4).toNat =
        (match t.cause with
         | .none => 0 | .illegalOpcode => 1 | .reservedNonzero => 2
         | .laneCountRange => 3 | .dataLength => 4 | .notInitialized => 5) ∧
      (s.fault = true → archTuple t = archTuple s ∧ Answered s t []) ∧
      (s.fault = false → expected ≠ .none →
        archTuple t = (s.lanes, s.initDone, true, expected) ∧ Answered s t []) ∧
      (s.fault = false → expected = .none →
        t.fault = false ∧ t.cause = .none ∧ ∃ i, decode c.word = .instr i ∧ exec i s = .next t)

/-- R66, R67: a word with an illegal opcode, and a word with a nonzero reserved field, fault with their own cause and
change no state except STATUS. The conditions are on the word's bits. -/
def Obligations.IllegalWordsFault : Prop :=
  ∀ (s : State) (c : Command) (rest : List HostEvent),
    s.input = .command c :: rest → s.fault = false →
    let op := (c.word.extractLsb' 0 4).toNat
    let illegal := op = 0 ∨ 0xC ≤ op
    let reserved := c.word.extractLsb' 9 23 ≠ 0 ∨
      (c.word.extractLsb' 4 5 ≠ 0 ∧ (op = 1 ∨ op = 2 ∨ 6 ≤ op ∧ op ≤ 0xB))
    (illegal → ∃ t, step s = .next t ∧ t.cause = .illegalOpcode ∧ t.fault = true ∧ t.lanes = s.lanes ∧
      t.initDone = s.initDone ∧ Answered s t []) ∧
    (¬ illegal → reserved → ∃ t, step s = .next t ∧ t.cause = .reservedNonzero ∧ t.fault = true ∧
      t.lanes = s.lanes ∧ t.initDone = s.initDone ∧ Answered s t [])

/-- R64, R180: an N outside [1,25] decodes, and faults at execution, before DATA or INIT_DONE is looked at. -/
def Obligations.LaneCountOutOfRangeFaults : Prop :=
  ∀ (s : State) (n : Nat), n = 0 ∨ 25 < n → s.fault = false →
    ∀ i ∈ [Instr.absorb n, Instr.xorLanes n, Instr.extract n],
      ∃ t, exec i s = .next t ∧ t.fault = true ∧ t.cause = .laneCountRange ∧ t.lanes = s.lanes ∧
        t.initDone = s.initDone ∧ Answered s t []

/-- R69: if DATA's length is not the length the command consumes, the command faults with DATA_LENGTH, the longer DATA
as much as the shorter, initialised or not. -/
def Obligations.WrongDataLengthFaults : Prop :=
  ∀ (s : State) (i : Instr), i.laneCountLegal = true → s.fault = false →
    (dataOperand s).length ≠
      (match i with
       | .init => 0 | .permute => 0 | .extract _ => 0
       | .absorb n => 8 * n | .xorLanes n => 8 * n
       | .absorb576 => 72 | .absorb832 => 104 | .absorb1024 => 128
       | .absorb1088 => 136 | .absorb1152 => 144 | .absorb1344 => 168) →
    ∃ t, exec i s = .next t ∧ t.fault = true ∧ t.cause = .dataLength ∧ t.lanes = s.lanes ∧
      t.initDone = s.initDone ∧ Answered s t []

/-- R28: an INIT that does not fault sets INIT_DONE, nothing else does, and reset alone clears it; while it is 0 every other
command whose operands are legal faults with NOT_INITIALIZED. -/
def Obligations.InitDoneRule : Prop :=
  (∀ s t : State, exec .init s = .next t → t.fault = false → t.initDone = true) ∧
  (∀ s t : State, step s = .next t → s.initDone = false → t.initDone = true →
    s.fault = false ∧ ∃ c rest, s.input = .command c :: rest ∧ decode c.word = .instr .init) ∧
  (∀ s t : State, step s = .next t → s.initDone = true → t.initDone = false →
    ∃ e rest, s.input = e :: rest ∧ e.isCommand = false) ∧
  (∀ (s : State) (i : Instr), i ≠ .init → i.laneCountLegal = true → s.fault = false → s.initDone = false →
    (dataOperand s).length = dataLength i →
    ∃ t, exec i s = .next t ∧ t.fault = true ∧ t.cause = .notInitialized ∧ t.lanes = s.lanes ∧
      t.initDone = false ∧ Answered s t [])

/-- R29, R183: while FAULT is 1, however many commands the host issues, each is answered (STATUS, empty), and S, INIT_DONE,
FAULT and CAUSE stay as the first fault left them; a reset clears FAULT and CAUSE. -/
def Obligations.FaultPersistsUntilReset : Prop :=
  (∀ (k : Nat) (s : State), s.fault = true → (∀ e ∈ s.input, e.isCommand = true) →
    ∃ t, runSteps k s = .next t ∧ archTuple t = archTuple s ∧
      t.responses = List.replicate (min k s.input.length) ⟨statusWord s, []⟩ ++ s.responses ∧
      t.input = s.input.drop k) ∧
  ∀ (s : State) (e : HostEvent) (rest : List HostEvent), s.input = e :: rest → e.isCommand = false →
    ∃ t, step s = .next t ∧ t.fault = false ∧ t.cause = .none

/-- R201: after reset, a legal command other than INIT with the right DATA faults with NOT_INITIALIZED, and every command
after it, whatever its word, leaves the engine faulted with that cause. -/
def Obligations.FirstCommandMustBeInit : Prop :=
  ∀ (s : State) (c : Command) (rest : List HostEvent) (i : Instr) (k : Nat),
    s.input = .command c :: rest → s.fault = false → s.initDone = false →
    decode c.word = .instr i → i ≠ .init → i.laneCountLegal = true → c.data.length = dataLength i →
    (∀ e ∈ rest, e.isCommand = true) →
    ∃ t, runSteps (k + 1) s = .next t ∧ t.fault = true ∧ t.cause = .notInitialized ∧ t.initDone = false

/-- R34, R200: reset leaves INIT_DONE, FAULT and CAUSE 0 and gives no response, from every state, whether it comes between
commands or cuts one off; and the machine right after reset has those values. Nothing is said of S. How the pending input and
the responses are held is the model's choice (log entries 3 and 4). -/
def Obligations.ResetClearsStatus : Prop :=
  (∀ (s : State) (e : HostEvent) (rest : List HostEvent), s.input = e :: rest → e.isCommand = false →
    ∃ t, step s = .next t ∧ t.initDone = false ∧ t.fault = false ∧ t.cause = .none ∧ statusWord t = 0 ∧
      t.input = rest ∧ t.responses = s.responses) ∧
  State.reset.initDone = false ∧ State.reset.fault = false ∧ State.reset.cause = .none ∧
  statusWord State.reset = 0 ∧ State.reset.responses = []

/-- R184, as log entry 2 reads it: a run in which any command has faulted is judged a fault with the first fault's cause,
whatever follows it, a reset included; it is a success only if FAULT was 0 all the way; and no further step turns a fault
into a success. -/
def Obligations.FaultedRunIsNoSuccess : Prop :=
  ∀ (k : Nat) (s : State),
    (∀ t, runVerdict k s = .next t ↔
      runSteps k s = .next t ∧ ∀ j ≤ k, ∀ u, runSteps j s = .next u → u.fault = false) ∧
    (∀ c, runVerdict k s = .fault (.commandFaulted c) ↔
      ∃ j ≤ k, ∃ u, runSteps j s = .next u ∧ u.fault = true ∧ u.cause = c ∧
        ∀ i < j, ∀ v, runSteps i s = .next v → v.fault = false) ∧
    (∀ m r, runVerdict k s = .fault r → runVerdict (k + m) s = .fault r)

/-! ## Steps, runs and the whole machine -/

/-- R70, R190: a command whose word decodes is executed whole by one step, and what step does is exec of it at that state. -/
def Obligations.StepRunsTheDecodedCommand : Prop :=
  ∀ (s : State) (c : Command) (rest : List HostEvent) (i : Instr),
    s.input = .command c :: rest → decode c.word = .instr i → step s = exec i s ∧ dataOperand s = c.data

/-- The model's choice (log entry 3): with nothing to do the engine waits, and nothing changes. -/
def Obligations.IdleEngineWaits : Prop :=
  ∀ s : State, s.input = [] → step s = .next s

/-- R190, R191, R61: every run answers a state; as many steps as the host has pending events consume them all, and each
command that reset does not cut off gets exactly one response. The lists are the model's (log entries 3 and 4). -/
def Obligations.EveryCommandAnsweredOnce : Prop :=
  ∀ s : State, ∃ t, runSteps s.input.length s = .next t ∧ t.input = [] ∧
    t.responses.length = s.responses.length + (s.input.filter HostEvent.isCommand).length ∧
    ∃ new, t.responses = new ++ s.responses

/-- What any command may change: one response with the STATUS after it is added, the command leaves the input, the free-value
source is untouched; only an instruction that completes may write S, and a faulted one has an empty OUT (R30, R61, R181). -/
def Obligations.ExecFrame : Prop :=
  ∀ (i : Instr) (s t : State), exec i s = .next t →
    (∃ out, Answered s t out ∧ (t.fault = true → out = []) ∧ ((∀ n, i ≠ .extract n) → out = [])) ∧
    (t.fault = true → t.lanes = s.lanes ∧ t.initDone = s.initDone) ∧
    (s.fault = true → archTuple t = archTuple s) ∧
    (t.fault = false → t.cause = s.cause) ∧
    (i ≠ .init → t.initDone = s.initDone) ∧
    ((∃ n, i = .extract n) → t.lanes = s.lanes) ∧
    (∀ n, i = .xorLanes n → ∀ j (h : j < 25), n ≤ j → t.lanes[j] = s.lanes[j])

/-- The invariant holds right after reset. -/
def Obligations.InvariantAtReset : Prop := Inv State.reset

/-- R27, R61, R49: every step, of every kind and from every state with the invariant, keeps it. -/
def Obligations.InvariantKeptByEveryStep : Prop :=
  ∀ s t : State, Inv s → step s = .next t → Inv t

/-- R33: two engines with equal tuples give equal responses to equal command sequences, and end in equal tuples. -/
def Obligations.EqualTuplesEqualResponses : Prop :=
  ∀ (k : Nat) (s t : State), archTuple s = archTuple t → s.input = t.input → (∀ e ∈ s.input, e.isCommand = true) →
    ∃ s' t' new, runSteps k s = .next s' ∧ runSteps k t = .next t' ∧
      archTuple s' = archTuple t' ∧ s'.responses = new ++ s.responses ∧ t'.responses = new ++ t.responses

/-- R28, R34, R50: what S happens to hold before an INIT completes can never be told from any response, through any number of
commands and resets. (So no run depends on the free value that log entry 1 puts there.) -/
def Obligations.ResetContentsUnobservable : Prop :=
  ∀ (k : Nat) (s t : State), SameVisible s t →
    ∃ s' t' new, runSteps k s = .next s' ∧ runSteps k t = .next t' ∧
      SameVisible s' t' ∧ s'.responses = new ++ s.responses ∧ t'.responses = new ++ t.responses

/-! ## Equivalences between commands -/

/-- R148: a fixed-width absorb is the general absorb at its lane count, in state and response, on every state; it never
reports LANE_COUNT_RANGE. -/
def Obligations.FixedAbsorbEqualsGeneralAbsorb : Prop :=
  ∀ p ∈ fixedAbsorbs, ∀ s : State, exec p.1 s = exec (.absorb p.2) s ∧
    ∀ t, exec p.1 s = .next t → t.cause = .laneCountRange → s.cause = .laneCountRange

/-- R151: ABSORB N, DATA, and each fixed-width absorb at its own lane count, leave the same state and give the same
response as XOR_LANES N, DATA followed by PERMUTE. -/
def Obligations.AbsorbIsXorThenPermute : Prop :=
  ∀ (s : State) (n : Nat) (data : List Byte) (i : Instr), 1 ≤ n → n ≤ 25 → data.length = 8 * n →
    s.fault = false → s.initDone = true → i = .absorb n ∨ (i, n) ∈ fixedAbsorbs →
    ∃ t u, runSteps 1 { s with input := [commandOf i data] } = .next t ∧
      runSteps 2 { s with input := [commandOf (.xorLanes n) data, commandOf .permute []] } = .next u ∧
      archTuple t = archTuple u ∧ t.fault = false ∧ t.responses.head? = u.responses.head?

/-- R150's corner case: XOR_LANES twice with the same DATA restores S. -/
def Obligations.XorLanesTwiceRestores : Prop :=
  ∀ (s : State) (n : Nat) (data : List Byte), 1 ≤ n → n ≤ 25 → data.length = 8 * n →
    s.fault = false → s.initDone = true →
    s.input = [commandOf (.xorLanes n) data, commandOf (.xorLanes n) data] →
    ∃ t, runSteps 2 s = .next t ∧ archTuple t = archTuple s

/-- R140's corner case: all-zero DATA makes ABSORB N equal to PERMUTE. -/
def Obligations.AbsorbOfZeroesIsPermute : Prop :=
  ∀ (s : State) (n : Nat), 1 ≤ n → n ≤ 25 → s.fault = false → s.initDone = true →
    ∃ t u, step { s with input := [commandOf (.absorb n) (List.replicate (8 * n) 0)] } = .next t ∧
      step { s with input := [commandOf .permute []] } = .next u ∧ t = u ∧ t.lanes = keccakF1600 s.lanes

/-- R50 (derived there from R160): two EXTRACTs with no command between them give identical OUT strings, S and STATUS
unchanged. -/
def Obligations.ExtractIsIdempotent : Prop :=
  ∀ (s : State) (n : Nat), 1 ≤ n → n ≤ 25 → s.fault = false → s.initDone = true →
    s.input = [commandOf (.extract n) [], commandOf (.extract n) []] →
    ∃ t r, runSteps 2 s = .next t ∧ archTuple t = archTuple s ∧ t.responses = r :: r :: s.responses

/-- R162: the OUT of EXTRACT N, XORed into the zero state by INIT; XOR_LANES N on any engine that is not faulted, gives lanes
0..N-1 back and leaves the rest 0. -/
def Obligations.ExtractXorRoundTrip : Prop :=
  ∀ (s : State) (n : Nat), 1 ≤ n → n ≤ 25 → s.fault = false → s.initDone = true →
    s.input = [commandOf (.extract n) []] →
    ∃ t b, step s = .next t ∧ t.responses = ⟨statusWord t, b⟩ :: s.responses ∧
      ∀ u : State, u.fault = false → u.input = [commandOf .init [], commandOf (.xorLanes n) b] →
        ∃ v, runSteps 2 u = .next v ∧ v.fault = false ∧
          ∀ i (h : i < 25), v.lanes[i] = if i < n then s.lanes[i] else 0

/-! ## Several engines -/

/-- From R57 and R196 (engines share no state): a step of one engine leaves every other engine as it was, and steps of two
engines give the same platform in either order. That engines step one at a time, in an order the caller says, is the model's
choice (log entry 7); the rules speak of no steps. -/
def Obligations.EnginesAreIndependent : Prop :=
  ∀ (p q r : Platform) (j k : Nat), j ≠ k → platformStep p j = .next q → platformStep q k = .next r →
    (∀ m, m ≠ j → q[m]? = p[m]?) ∧
    ∃ q', platformStep p k = .next q' ∧ platformStep q' j = .next r

/-- R196: a platform of NUM_ENGINES engines, whatever that number is (log entry 7), starts with each instance in the
reset state of R34. -/
def Obligations.EveryEngineStartsReset : Prop :=
  platformReset.length = Config.numEngines ∧ platformReset = (List.range Config.numEngines).map State.powerOn ∧
  ∀ k, (State.powerOn k).initDone = false ∧ (State.powerOn k).fault = false ∧ (State.powerOn k).cause = .none ∧
    statusWord (State.powerOn k) = 0 ∧ (State.powerOn k).input = [] ∧ (State.powerOn k).responses = []
end

