-- ==== Sys2Proof/Laws/Codec.lean ====
section
/-! SUPPORT. The lane codec: lengths, single bytes, and the little-endian number byte by byte. -/

namespace Sys2Proof.Machine

/-- n bytes are a number below 2^(8n). -/
theorem leNat_lt (bs : List Byte) : leNat bs < 2 ^ (8 * bs.length) := by
  induction bs with
  | nil => simp [leNat]
  | cons b bs ih =>
    have hb := b.isLt
    have : 2 ^ (8 * (bs.length + 1)) = 2 ^ 8 * 2 ^ (8 * bs.length) := by rw [← Nat.pow_add]; ring_nf
    simp only [leNat, List.length_cons, this]
    omega

/-- Byte k of the number is the k-th byte of the string, and 0 past its end. -/
theorem leNat_byte (bs : List Byte) (k : Nat) : leNat bs / 2 ^ (8 * k) % 2 ^ 8 = (bs.getD k 0).toNat := by
  induction bs generalizing k with
  | nil => simp [leNat]
  | cons b bs ih =>
    have hb := b.isLt
    cases k with
    | zero => simp only [leNat, Nat.mul_zero, Nat.pow_zero, Nat.div_one, List.getD_cons_zero]; omega
    | succ k =>
      have h : 2 ^ (8 * (k + 1)) = 2 ^ 8 * 2 ^ (8 * k) := by rw [← Nat.pow_add]; ring_nf
      have hd : (b.toNat + 2 ^ 8 * leNat bs) / 2 ^ 8 = leNat bs := by omega
      rw [leNat, h, ← Nat.div_div_eq_div_mul, hd, ih, List.getD_cons_succ]

/-- Byte k of a lane read from bytes is byte k of the string. -/
theorem bytesToLane_byte (bs : List Byte) (k : Nat) (hk : k < 8) :
    (bytesToLane bs).extractLsb' (8 * k) 8 = bs.getD k 0 := by
  apply BitVec.eq_of_toNat_eq
  rw [← leNat_byte, BitVec.extractLsb'_toNat, bytesToLane, BitVec.toNat_ofNat, Nat.shiftRight_eq_div_pow]
  interval_cases k <;> omega

@[simp] theorem laneToBytes_length (l : Lane) : (laneToBytes l).length = 8 := by simp [laneToBytes]

/-- Byte k of a lane's bytes. -/
theorem laneToBytes_getElem? (l : Lane) (k : Nat) (hk : k < 8) :
    (laneToBytes l)[k]? = some (l.extractLsb' (8 * k) 8) := by
  simp [laneToBytes, List.getElem?_range hk]

/-- Two lanes with the same eight bytes are equal. -/
theorem lane_ext_bytes {a b : Lane} (h : ∀ k < 8, a.extractLsb' (8 * k) 8 = b.extractLsb' (8 * k) 8) : a = b := by
  apply BitVec.eq_of_getLsbD_eq
  intro i hi
  have := congrArg (fun v => v.getLsbD (i % 8)) (h (i / 8) (by omega))
  simpa [BitVec.getLsbD_extractLsb', Nat.mod_lt, Nat.div_add_mod] using this

/-- The bytes of a list of lanes: byte k is byte k mod 8 of lane k div 8. -/
theorem flatMap_laneToBytes_getElem? (ls : List Lane) (k : Nat) (hk : k < 8 * ls.length) :
    (ls.flatMap laneToBytes)[k]? = some ((ls.getD (k / 8) 0).extractLsb' (8 * (k % 8)) 8) := by
  induction ls generalizing k with
  | nil => simp at hk
  | cons l ls ih =>
    rw [List.length_cons] at hk
    rw [List.flatMap_cons, List.getElem?_append, laneToBytes_length]
    split
    · rename_i h
      have h0 : k / 8 = 0 := by omega
      have h1 : k % 8 = k := by omega
      rw [laneToBytes_getElem? l k h, h0, h1, List.getD_cons_zero]
    · rename_i h
      have h0 : k / 8 = (k - 8) / 8 + 1 := by omega
      have h1 : k % 8 = (k - 8) % 8 := by omega
      rw [ih (k - 8) (by omega), h0, h1, List.getD_cons_succ]

theorem flatMap_laneToBytes_length (ls : List Lane) : (ls.flatMap laneToBytes).length = 8 * ls.length := by
  induction ls with
  | nil => rfl
  | cons l ls ih => rw [List.flatMap_cons, List.length_append, ih, laneToBytes_length, List.length_cons]; ring

@[simp] theorem stateBytes_length (a : Lanes) : (stateBytes a).length = 200 := by
  rw [stateBytes, flatMap_laneToBytes_length, Vector.length_toList]

theorem leadingBytes_length (a : Lanes) (n : Nat) : (leadingBytes a n).length = 8 * min n 25 := by
  rw [leadingBytes, flatMap_laneToBytes_length, List.length_take, Vector.length_toList]

/-- Byte k of EXTRACT's OUT. -/
theorem leadingBytes_getElem? (a : Lanes) (n k : Nat) (hk : k < 8 * n) (hn : n ≤ 25) :
    (leadingBytes a n)[k]? = some ((a[k / 8]'(by omega)).extractLsb' (8 * (k % 8)) 8) := by
  rw [leadingBytes, flatMap_laneToBytes_getElem? _ _ (by simp; omega)]
  simp [List.getD_eq_getElem?_getD, show k / 8 < n by omega, show k / 8 < 25 by omega]

/-- A data lane is its eight bytes read as a lane (R42, R44). -/
theorem dataLane_eq (data : List Byte) (i : Nat) : dataLane data i = bytesToLane ((data.drop (8 * i)).take 8) := rfl

/-- Reading lane i back from EXTRACT's OUT, byte by byte. -/
theorem dataLane_leadingBytes_byte (a : Lanes) (n i k : Nat) (hi : i < n) (hn : n ≤ 25) (hk : k < 8) :
    (dataLane (leadingBytes a n) i).extractLsb' (8 * k) 8 = (a[i]'(by omega)).extractLsb' (8 * k) 8 := by
  rw [dataLane_eq, bytesToLane_byte _ _ hk, List.getD_eq_getElem?_getD, List.getElem?_take_of_lt hk, List.getElem?_drop,
    leadingBytes_getElem? a n _ (by omega) hn]
  simp [show (8 * i + k) / 8 = i by omega, show (8 * i + k) % 8 = k by omega]

end Sys2Proof.Machine
end

