-- ==== Sys2Proof/Laws/Decode.lean ====
section
/-! SUPPORT. The fields of a word read as numbers. -/

namespace Sys2Proof

theorem opField_eq (w : CommandWord) : opField w = w.toNat % 16 := by
  simp [opField, BitVec.extractLsb'_toNat]

theorem laneCountField_eq (w : CommandWord) : laneCountField w = w.toNat / 16 % 32 := by
  simp [laneCountField, BitVec.extractLsb'_toNat, Nat.shiftRight_eq_div_pow]

theorem reservedField_eq (w : CommandWord) : reservedField w = w.toNat / 512 := by
  have := w.isLt
  simp only [reservedField, BitVec.extractLsb'_toNat, Nat.shiftRight_eq_div_pow]
  omega

/-- The word of an opcode below 16 and an N below 32 is the number OP + 16 N. -/
theorem word_toNat (op n : Nat) (ho : op < 16) (hn : n < 32) :
    (BitVec.ofNat 32 op ||| (BitVec.ofNat 32 n <<< 4)).toNat = op + 16 * n := by
  have h : n <<< 4 ||| op = n <<< 4 + op := (Nat.shiftLeft_add_eq_or_of_lt (i := 4) ho n).symm
  have hs : n <<< 4 = 16 * n := by rw [Nat.shiftLeft_eq]; omega
  rw [BitVec.toNat_or, BitVec.toNat_shiftLeft, BitVec.toNat_ofNat, BitVec.toNat_ofNat,
    Nat.mod_eq_of_lt (show op < 2 ^ 32 by omega), Nat.mod_eq_of_lt (show n < 2 ^ 32 by omega),
    Nat.mod_eq_of_lt (show n <<< 4 < 2 ^ 32 by omega), Nat.or_comm, h, hs]
  omega

theorem opcode_lt (i : Instr) : i.opcode < 16 := by cases i <;> simp [Instr.opcode]

/-- An encoded instruction as a number. -/
theorem encode_toNat (i : Instr) (h : i.WellFormed) : (encode i).toNat = i.opcode + 16 * i.laneField :=
  word_toNat _ _ (opcode_lt i) h

/-- A lane count that may execute fits its field. -/
theorem wellFormed_of_laneCountLegal {i : Instr} (h : i.laneCountLegal = true) : i.WellFormed := by
  cases i <;> simp_all [Instr.laneCountLegal, Instr.WellFormed, Instr.laneField] <;> omega

/-- The map of opcodes, for an instruction's own opcode. -/
theorem decodeOp_opcode (i : Instr) : decodeOp i.opcode i.laneField = .instr i := by cases i <;> rfl

end Sys2Proof
end

