-- ==== Sys2Proof/Laws/Keccak.lean ====
section
/-! SUPPORT. Lanes by grid position, the rotation bit by bit, and the algebra of theta's column mixing. -/

namespace Sys2Proof.Machine

/-! ## Grid positions -/

@[simp] theorem gridIndex_val (x y : Nat) : (gridIndex x y).val = x % 5 + 5 * (y % 5) := rfl

/-- A built array read at a grid position. -/
@[simp] theorem lane_buildLanes (f : Nat → Nat → Lane) (x y : Nat) : lane (buildLanes f) x y = f (x % 5) (y % 5) := by
  have key : ∀ x < 5, ∀ y < 5, (buildLanes f)[x + 5 * y]? = some (f x y) := by
    intro x hx y hy
    interval_cases x <;> interval_cases y <;> rfl
  have h := key _ (Nat.mod_lt x (by omega)) _ (Nat.mod_lt y (by omega))
  exact Vector.getElem_eq_iff.2 h

/-- Coordinates are taken mod 5. -/
@[simp] theorem lane_mod_left (a : Lanes) (x y : Nat) : lane a (x % 5) y = lane a x y := by simp [lane, gridIndex]

@[simp] theorem lane_mod_right (a : Lanes) (x y : Nat) : lane a x (y % 5) = lane a x y := by simp [lane, gridIndex]

/-- Lane i sits at (i mod 5, i div 5) (R21). -/
theorem getElem_eq_lane (a : Lanes) (i : Nat) (h : i < 25) : a[i] = lane a (i % 5) (i / 5) := by
  have : i % 5 % 5 + 5 * (i / 5 % 5) = i := by omega
  simp only [lane, Vector.get_eq_getElem, gridIndex_val, this]

/-- Two states with the same lane at every grid position are equal. -/
theorem lanes_ext {a b : Lanes} (h : ∀ x < 5, ∀ y < 5, lane a x y = lane b x y) : a = b := by
  apply Vector.ext
  intro i hi
  rw [getElem_eq_lane, getElem_eq_lane]
  exact h _ (by omega) _ (by omega)

@[simp] theorem lane_constLanes (v : Lane) (x y : Nat) : lane (constLanes v) x y = v := by
  simp [lane, constLanes, Vector.get_eq_getElem]

@[simp] theorem constLanes_getElem (v : Lane) (i : Nat) (h : i < 25) : (constLanes v)[i] = v := by simp [constLanes]

/-! ## Rotation -/

/-- R13: bit z of rol64(v, n) is bit (z - n) mod 64 of v. -/
theorem rol64_getLsbD (v : Lane) (n z : Nat) (hz : z < 64) :
    (rol64 v n).getLsbD z = v.getLsbD ((z + 64 - n % 64) % 64) := by
  rw [rol64, BitVec.getLsbD_rotateLeft]
  have := Nat.mod_lt n (show 64 > 0 by omega)
  by_cases h : z < n % 64
  · simp only [h, decide_true, cond_true]
    congr 1; omega
  · simp only [h, hz, decide_true, decide_false, cond_false, Bool.true_and]
    congr 1; omega

theorem rol64_xor (a b : Lane) (n : Nat) : rol64 (a ^^^ b) n = rol64 a n ^^^ rol64 b n := by
  apply BitVec.eq_of_getLsbD_eq
  intro z hz
  simp only [rol64_getLsbD, BitVec.getLsbD_xor, hz]

@[simp] theorem rol64_zero (n : Nat) : rol64 0#64 n = 0#64 := by
  apply BitVec.eq_of_getLsbD_eq
  intro z hz
  rw [rol64_getLsbD _ _ _ hz]
  simp

/-- Rotations add up. -/
theorem rol64_rol64 (v : Lane) (m n : Nat) : rol64 (rol64 v m) n = rol64 v (m + n) := by
  apply BitVec.eq_of_getLsbD_eq
  intro z hz
  rw [rol64_getLsbD _ _ _ hz, rol64_getLsbD _ _ _ (Nat.mod_lt _ (by omega)), rol64_getLsbD _ _ _ hz]
  congr 1; omega

/-- A rotation by a multiple of 64 is none. -/
theorem rol64_of_mod_eq_zero (v : Lane) (n : Nat) (h : n % 64 = 0) : rol64 v n = v := by
  apply BitVec.eq_of_getLsbD_eq
  intro z hz
  rw [rol64_getLsbD _ _ _ hz]
  congr 1; omega

/-! ## The pieces of theta, rho and pi at a grid position -/

/-- Built columns read at a column. -/
@[simp] theorem buildColumns_get (g : Nat → Lane) (x : Fin 5) : (buildColumns g).get x = g x.val := by
  fin_cases x <;> rfl

theorem columnParity_get (a : Lanes) (x : Fin 5) :
    (columnParity a).get x = lane a x 0 ^^^ lane a x 1 ^^^ lane a x 2 ^^^ lane a x 3 ^^^ lane a x 4 := by
  simp [columnParity]

theorem thetaEffect_get (c : Vector Lane 5) (x : Fin 5) :
    (thetaEffect c).get x = c.get (Fin.ofNat 5 (x.val + 4)) ^^^ rol64 (c.get (Fin.ofNat 5 (x.val + 1))) 1 := by
  simp [thetaEffect]

theorem lane_theta (a : Lanes) (x y : Nat) (hx : x < 5) (hy : y < 5) :
    lane (theta a) x y = lane a x y ^^^ (thetaEffect (columnParity a)).get ⟨x, hx⟩ := by
  have : Fin.ofNat 5 x = ⟨x, hx⟩ := Fin.ext (Nat.mod_eq_of_lt hx)
  simp only [theta, lane_buildLanes, Nat.mod_eq_of_lt hx, Nat.mod_eq_of_lt hy, this]

/-- The XOR of two states, lane by lane. -/
theorem lane_zipWith_xor (a b : Lanes) (x y : Nat) :
    lane (Vector.zipWith (· ^^^ ·) a b) x y = lane a x y ^^^ lane b x y := by
  simp [lane, Vector.get_eq_getElem]

theorem lane_rho (a : Lanes) (x y : Nat) (hx : x < 5) (hy : y < 5) :
    lane (rho a) x y = rol64 (lane a x y) (rotationTable.get (gridIndex x y)) := by
  simp [rho, Nat.mod_eq_of_lt hx, Nat.mod_eq_of_lt hy]

/-! ## theta's column mixing

`mix d r` sends the columns c to c(x) ^ c(x - d) ^ rol64(c(x + d), r); theta turns the column parities C into
`mix 1 1 C`. Twice `mix d r` is `mix 2d 2r`, so 192 times `mix 1 1` is the identity. -/

/-- The column mixing of step d and rotation r. -/
def mix (d : Fin 5) (r : Nat) (c : Fin 5 → Lane) (x : Fin 5) : Lane :=
  c x ^^^ c (x - d) ^^^ rol64 (c (x + d)) r

theorem mix_mix (d : Fin 5) (r : Nat) (c : Fin 5 → Lane) : mix d r (mix d r c) = mix (d + d) (r + r) c := by
  funext x
  simp only [mix, rol64_xor, rol64_rol64]
  have h1 : x - d + d = x := by omega
  have h2 : x + d - d = x := by omega
  have h3 : x - d - d = x - (d + d) := by omega
  have h4 : x + d + d = x + (d + d) := by omega
  rw [h1, h2, h3, h4]
  ac_nf
  simp [← BitVec.xor_assoc]

/-- The mixing with no rotation, three times, is the identity. -/
theorem mix_four_cubed (c : Fin 5 → Lane) : mix 4 0 (mix 4 0 (mix 4 0 c)) = c := by
  have e (c : Fin 5 → Lane) (x : Fin 5) : mix 4 0 c x = c x ^^^ c (x + 1) ^^^ c (x + 4) := by
    rw [mix, rol64_of_mod_eq_zero _ 0 rfl, show x - 4 = x + 1 by omega]
  funext x
  simp only [e, add_assoc, Fin.reduceAdd, add_zero]
  apply BitVec.eq_of_getLsbD_eq
  intro z _
  simp only [BitVec.getLsbD_xor]
  generalize (c x).getLsbD z = b0
  generalize (c (x + 1)).getLsbD z = b1
  generalize (c (x + 2)).getLsbD z = b2
  generalize (c (x + 3)).getLsbD z = b3
  generalize (c (x + 4)).getLsbD z = b4
  revert b0 b1 b2 b3 b4
  decide

/-- theta's column mixing loses nothing. -/
theorem mix_one_injective : Function.Injective (mix 1 1) := by
  have h64 (c) : (mix 1 1)^[64] c = mix 4 0 c := by
    have e1 : (mix 1 1)^[2] = mix 2 2 := funext fun c => mix_mix 1 1 c
    have e2 : (mix 2 2)^[2] = mix 4 4 := funext fun c => mix_mix 2 2 c
    have e3 : (mix 4 4)^[2] = mix 3 8 := funext fun c => mix_mix 4 4 c
    have e4 : (mix 3 8)^[2] = mix 1 16 := funext fun c => mix_mix 3 8 c
    have e5 : (mix 1 16)^[2] = mix 2 32 := funext fun c => mix_mix 1 16 c
    have e6 : (mix 2 32)^[2] = mix 4 64 := funext fun c => mix_mix 2 32 c
    have : (64 : Nat) = 2 * 2 * 2 * 2 * 2 * 2 := rfl
    rw [this]
    simp only [Function.iterate_mul, e1, e2, e3, e4, e5, e6]
    funext x
    simp only [mix, rol64_of_mod_eq_zero _ 0 rfl, rol64_of_mod_eq_zero _ 64 rfl]
  apply Function.LeftInverse.injective (g := fun c => mix 4 0 (mix 4 0 ((mix 1 1)^[63] c)))
  intro c
  have : (mix 1 1)^[63] (mix 1 1 c) = mix 4 0 c := by rw [← h64, ← Function.iterate_succ_apply]
  simp only [this]
  exact mix_four_cubed c

/-- theta turns the parities C of the columns into `mix 1 1 C`: five times D is D. -/
theorem columnParity_theta (a : Lanes) (x : Fin 5) :
    (columnParity (theta a)).get x = mix 1 1 (fun x => (columnParity a).get x) x := by
  have h4 : Fin.ofNat 5 (x.val + 4) = x - 1 := by apply Fin.ext; simp; omega
  have h1 : Fin.ofNat 5 (x.val + 1) = x + 1 := by apply Fin.ext; simp; omega
  rw [columnParity_get (theta a)]
  simp only [lane_theta _ _ _ x.isLt (show 0 < 5 by omega), lane_theta _ _ _ x.isLt (show 1 < 5 by omega),
    lane_theta _ _ _ x.isLt (show 2 < 5 by omega), lane_theta _ _ _ x.isLt (show 3 < 5 by omega),
    lane_theta _ _ _ x.isLt (show 4 < 5 by omega), Fin.eta, mix]
  rw [thetaEffect_get, h4, h1, columnParity_get a x]
  generalize (columnParity a).get (x - 1) = p
  generalize rol64 ((columnParity a).get (x + 1)) 1 = q
  apply BitVec.eq_of_getLsbD_eq
  intro z _
  simp only [BitVec.getLsbD_xor]
  generalize (lane a x 0).getLsbD z = b0
  generalize (lane a x 1).getLsbD z = b1
  generalize (lane a x 2).getLsbD z = b2
  generalize (lane a x 3).getLsbD z = b3
  generalize (lane a x 4).getLsbD z = b4
  generalize p.getLsbD z = p
  generalize q.getLsbD z = q
  revert b0 b1 b2 b3 b4 p q
  decide

end Sys2Proof.Machine
end

