-- ==== Sys2Proof/Laws/State.lean ====
section
/-! SUPPORT. One lemma per field per update of State, each true by definition; what the steps and rules of State are at reset. -/

namespace Sys2Proof.Machine

variable (s : State)

@[simp] theorem State.withLanes_lanes (a : Lanes) : (s.withLanes a).lanes = a := rfl
@[simp] theorem State.withLanes_initDone (a : Lanes) : (s.withLanes a).initDone = s.initDone := rfl
@[simp] theorem State.withLanes_fault (a : Lanes) : (s.withLanes a).fault = s.fault := rfl
@[simp] theorem State.withLanes_cause (a : Lanes) : (s.withLanes a).cause = s.cause := rfl
@[simp] theorem State.withLanes_input (a : Lanes) : (s.withLanes a).input = s.input := rfl
@[simp] theorem State.withLanes_responses (a : Lanes) : (s.withLanes a).responses = s.responses := rfl
@[simp] theorem State.withLanes_source (a : Lanes) : (s.withLanes a).source = s.source := rfl

@[simp] theorem State.markInitialised_lanes : (s.markInitialised).lanes = s.lanes := rfl
@[simp] theorem State.markInitialised_initDone : (s.markInitialised).initDone = true := rfl
@[simp] theorem State.markInitialised_fault : (s.markInitialised).fault = s.fault := rfl
@[simp] theorem State.markInitialised_cause : (s.markInitialised).cause = s.cause := rfl
@[simp] theorem State.markInitialised_input : (s.markInitialised).input = s.input := rfl
@[simp] theorem State.markInitialised_responses : (s.markInitialised).responses = s.responses := rfl
@[simp] theorem State.markInitialised_source : (s.markInitialised).source = s.source := rfl

@[simp] theorem State.recordFault_lanes (c : Cause) : (s.recordFault c).lanes = s.lanes := rfl
@[simp] theorem State.recordFault_initDone (c : Cause) : (s.recordFault c).initDone = s.initDone := rfl
@[simp] theorem State.recordFault_fault (c : Cause) : (s.recordFault c).fault = true := rfl
@[simp] theorem State.recordFault_cause (c : Cause) : (s.recordFault c).cause = c := rfl
@[simp] theorem State.recordFault_input (c : Cause) : (s.recordFault c).input = s.input := rfl
@[simp] theorem State.recordFault_responses (c : Cause) : (s.recordFault c).responses = s.responses := rfl
@[simp] theorem State.recordFault_source (c : Cause) : (s.recordFault c).source = s.source := rfl

@[simp] theorem respond_lanes (out : List Byte) : (respond out s).lanes = s.lanes := rfl
@[simp] theorem respond_initDone (out : List Byte) : (respond out s).initDone = s.initDone := rfl
@[simp] theorem respond_fault (out : List Byte) : (respond out s).fault = s.fault := rfl
@[simp] theorem respond_cause (out : List Byte) : (respond out s).cause = s.cause := rfl
@[simp] theorem respond_input (out : List Byte) : (respond out s).input = retireCommand s.input := rfl
@[simp] theorem respond_responses (out : List Byte) : (respond out s).responses = ⟨statusWord s, out⟩ :: s.responses := rfl
@[simp] theorem respond_source (out : List Byte) : (respond out s).source = s.source := rfl

@[simp] theorem resetEngine_lanes : (resetEngine s).lanes = freshLanes ⟨s.source.inst, s.source.resets + 1⟩ := rfl
@[simp] theorem resetEngine_initDone : (resetEngine s).initDone = false := rfl
@[simp] theorem resetEngine_fault : (resetEngine s).fault = false := rfl
@[simp] theorem resetEngine_cause : (resetEngine s).cause = .none := rfl
@[simp] theorem resetEngine_input : (resetEngine s).input = s.input.tail := rfl
@[simp] theorem resetEngine_responses : (resetEngine s).responses = s.responses := by cases s; rfl
@[simp] theorem resetEngine_source : (resetEngine s).source = ⟨s.source.inst, s.source.resets + 1⟩ := rfl

@[simp] theorem State.withFetchWord_lanes (nbits w : Nat) : (s.withFetchWord nbits w).lanes = s.lanes := rfl
@[simp] theorem State.withFetchWord_initDone (nbits w : Nat) : (s.withFetchWord nbits w).initDone = s.initDone := rfl
@[simp] theorem State.withFetchWord_fault (nbits w : Nat) : (s.withFetchWord nbits w).fault = s.fault := rfl
@[simp] theorem State.withFetchWord_cause (nbits w : Nat) : (s.withFetchWord nbits w).cause = s.cause := rfl
@[simp] theorem State.withFetchWord_input (nbits w : Nat) : (s.withFetchWord nbits w).input = .command (tableCommand nbits w) :: s.input := rfl
@[simp] theorem State.withFetchWord_responses (nbits w : Nat) : (s.withFetchWord nbits w).responses = s.responses := rfl
@[simp] theorem State.withFetchWord_source (nbits w : Nat) : (s.withFetchWord nbits w).source = s.source := rfl

@[simp] theorem updateLanes_lanes (g : Lanes → List Byte → Lanes) : (updateLanes g s).lanes = g s.lanes (dataOperand s) := rfl
@[simp] theorem updateLanes_initDone (g : Lanes → List Byte → Lanes) : (updateLanes g s).initDone = s.initDone := rfl
@[simp] theorem updateLanes_fault (g : Lanes → List Byte → Lanes) : (updateLanes g s).fault = s.fault := rfl
@[simp] theorem updateLanes_cause (g : Lanes → List Byte → Lanes) : (updateLanes g s).cause = s.cause := rfl
@[simp] theorem updateLanes_input (g : Lanes → List Byte → Lanes) : (updateLanes g s).input = s.input := rfl
@[simp] theorem updateLanes_responses (g : Lanes → List Byte → Lanes) : (updateLanes g s).responses = s.responses := rfl
@[simp] theorem updateLanes_source (g : Lanes → List Byte → Lanes) : (updateLanes g s).source = s.source := rfl

@[simp] theorem powerOn_initDone (k : Nat) : (State.powerOn k).initDone = false := rfl
@[simp] theorem powerOn_fault (k : Nat) : (State.powerOn k).fault = false := rfl
@[simp] theorem powerOn_cause (k : Nat) : (State.powerOn k).cause = .none := rfl
@[simp] theorem powerOn_input (k : Nat) : (State.powerOn k).input = [] := rfl
@[simp] theorem powerOn_responses (k : Nat) : (State.powerOn k).responses = [] := rfl

@[simp] theorem retireCommand_nil : retireCommand [] = [] := rfl
@[simp] theorem retireCommand_command (c : Command) (q : List HostEvent) : retireCommand (.command c :: q) = q := rfl

/-- STATUS depends on its three fields alone. -/
theorem statusWord_congr {t : State} (h0 : t.initDone = s.initDone) (h1 : t.fault = s.fault) (h2 : t.cause = s.cause) :
    statusWord t = statusWord s := by
  simp [statusWord, h0, h1, h2]

@[simp] theorem statusWord_withLanes (a : Lanes) : statusWord (s.withLanes a) = statusWord s := rfl
@[simp] theorem statusWord_respond (out : List Byte) : statusWord (respond out s) = statusWord s := rfl

/-- DATA is the head command's. -/
theorem dataOperand_of_input {c : Command} {rest : List HostEvent} (h : s.input = .command c :: rest) :
    dataOperand s = c.data := by
  simp [dataOperand, h]

@[simp] theorem dataOperand_withLanes (a : Lanes) : dataOperand (s.withLanes a) = dataOperand s := rfl

end Sys2Proof.Machine
end

