-- ==== Sys2Proof/Laws/Ops.lean ====
section
/-! SUPPORT. What the shared operations can do, said once: the checks, a command's frame, and the one shape every meaning has. -/

namespace Sys2Proof.Machine

@[simp] theorem firstCause_nil : firstCause [] = none := rfl

/-- The first failing check decides, whatever follows it. -/
@[simp] theorem firstCause_cons (k : Check) (ks : List Check) :
    firstCause (k :: ks) = if k.failed then some k.cause else firstCause ks := rfl

/-- No check reports "no fault". -/
theorem firstCause_ne_none {ks : List Check} (h : ∀ k ∈ ks, k.cause ≠ .none) {c : Cause} (hc : firstCause ks = some c) :
    c ≠ .none := by
  induction ks with
  | nil => simp at hc
  | cons k ks ih =>
    rw [firstCause_cons] at hc
    split at hc
    · cases hc; exact h k (by simp)
    · exact ih (fun k' hk => h k' (by simp [hk])) hc

section
variable {checks : List Check} {effect : State → State} {out : State → List Byte} {s : State}

/-- A faulted engine rejects the command. -/
theorem runCommand_of_fault (h : s.fault = true) : runCommand checks effect out s = rejectCommand s := by
  simp [runCommand, h]

/-- A failing check takes its fault. -/
theorem runCommand_of_failed {c : Cause} (h : s.fault = false) (hc : firstCause checks = some c) :
    runCommand checks effect out s = respond [] (s.recordFault c) := by
  simp [runCommand, takeFault, h, hc]

/-- With no check failing the effect happens. -/
theorem runCommand_of_passed (h : s.fault = false) (hc : firstCause checks = none) :
    runCommand checks effect out s = respond (out s) (effect s) := by
  simp [runCommand, h, hc]

/-- Everything a command can do. -/
theorem runCommand_cases (checks : List Check) (effect : State → State) (out : State → List Byte) (s : State) :
    (s.fault = true ∧ runCommand checks effect out s = rejectCommand s) ∨
    (s.fault = false ∧ ∃ c, firstCause checks = some c ∧
      runCommand checks effect out s = respond [] (s.recordFault c)) ∨
    (s.fault = false ∧ firstCause checks = none ∧
      runCommand checks effect out s = respond (out s) (effect s)) := by
  cases hf : s.fault with
  | true => exact .inl ⟨rfl, runCommand_of_fault hf⟩
  | false =>
    cases hc : firstCause checks with
    | some c => exact .inr (.inl ⟨rfl, c, rfl, runCommand_of_failed hf hc⟩)
    | none => exact .inr (.inr ⟨rfl, rfl, runCommand_of_passed hf hc⟩)

end

/-- Taking a fault, on a faulted engine and on one that is not. -/
theorem takeFault_cases (c : Cause) (s : State) :
    (s.fault = true ∧ takeFault c s = rejectCommand s) ∨
    (s.fault = false ∧ takeFault c s = respond [] (s.recordFault c)) := by
  cases hf : s.fault <;> simp [takeFault, hf]

/-- The checks of each instruction, in R182's order. -/
def instrChecks (i : Instr) (s : State) : List Check :=
  match i with
  | .init => [dataLengthCheck s (dataLength .init)]
  | .absorb n => laneCommandChecks n (dataLength i) s
  | .xorLanes n => laneCommandChecks n (dataLength i) s
  | .extract n => laneCommandChecks n (dataLength i) s
  | _ => plainCommandChecks (dataLength i) s

/-- The effect of each instruction when no check fails. -/
def instrEffect : Instr → State → State
  | .init => fun s => (s.withLanes (constLanes 0)).markInitialised
  | .permute => updateLanes fun a _ => keccakF1600 a
  | .absorb n => updateLanes (absorbLanes n)
  | .xorLanes n => updateLanes fun a data => xorDataLanes a data n
  | .extract _ => id
  | .absorb576 => updateLanes (absorbLanes 9)
  | .absorb832 => updateLanes (absorbLanes 13)
  | .absorb1024 => updateLanes (absorbLanes 16)
  | .absorb1088 => updateLanes (absorbLanes 17)
  | .absorb1152 => updateLanes (absorbLanes 18)
  | .absorb1344 => updateLanes (absorbLanes 21)

/-- The OUT of each instruction when no check fails. -/
def instrOut : Instr → State → List Byte
  | .extract n => fun s => leadingBytes s.lanes n
  | _ => noOutput

/-- Every meaning is one `runCommand`: no instruction ends in a fault or a refusal of the model's. -/
theorem exec_eq_runCommand (i : Instr) (s : State) :
    exec i s = .next (runCommand (instrChecks i s) (instrEffect i) (instrOut i) s) := by
  cases i <;> rfl

/-- No check of any instruction reports cause 0. -/
theorem instrChecks_cause_ne_none (i : Instr) (s : State) : ∀ k ∈ instrChecks i s, k.cause ≠ .none := by
  cases i <;> simp [instrChecks, laneCommandChecks, plainCommandChecks, laneCountCheck, dataLengthCheck, initialisedCheck]

/-- An effect writes S and INIT_DONE alone. -/
theorem instrEffect_frame (i : Instr) (s : State) :
    (instrEffect i s).fault = s.fault ∧ (instrEffect i s).cause = s.cause ∧ (instrEffect i s).input = s.input ∧
    (instrEffect i s).responses = s.responses ∧ (instrEffect i s).source = s.source ∧
    (i ≠ .init → (instrEffect i s).initDone = s.initDone) := by
  cases i <;> simp [instrEffect, updateLanes]

/-- The checks pass exactly when the lane count is legal, DATA has the length R69 gives, and an INIT has completed
(which INIT itself does not need). -/
theorem firstCause_instrChecks_eq_none (i : Instr) (s : State) :
    firstCause (instrChecks i s) = none ↔
      i.laneCountLegal = true ∧ (dataOperand s).length = dataLength i ∧ (i ≠ .init → s.initDone = true) := by
  have lanes (n len : Nat) : firstCause (laneCommandChecks n len s) = none ↔
      (1 ≤ n && n ≤ 25) = true ∧ (dataOperand s).length = len ∧ s.initDone = true := by
    simp only [laneCommandChecks, laneCountCheck, dataLengthCheck, initialisedCheck, firstCause_cons, firstCause_nil]
    split <;> (try split) <;> (try split) <;> simp_all <;> omega
  have plain (len : Nat) : firstCause (plainCommandChecks len s) = none ↔
      (dataOperand s).length = len ∧ s.initDone = true := by
    simp only [plainCommandChecks, dataLengthCheck, initialisedCheck, firstCause_cons, firstCause_nil]
    split <;> (try split) <;> simp_all
  cases i <;> simp only [instrChecks, lanes, plain, Instr.laneCountLegal] <;> simp [dataLengthCheck]

/-- With a legal lane count, DATA of the wrong length is the first failure. -/
theorem firstCause_of_wrongLength {i : Instr} {s : State} (hl : i.laneCountLegal = true)
    (hd : (dataOperand s).length ≠ dataLength i) : firstCause (instrChecks i s) = some .dataLength := by
  have lanes (n len : Nat) (h : (1 ≤ n && n ≤ 25) = true) (hd : (dataOperand s).length ≠ len) :
      firstCause (laneCommandChecks n len s) = some .dataLength := by
    simp only [Bool.and_eq_true, decide_eq_true_eq] at h
    have h' : ¬ (n = 0 ∨ 25 < n) := by omega
    simp [laneCommandChecks, laneCountCheck, dataLengthCheck, hd, h']
  have plain (len : Nat) (hd : (dataOperand s).length ≠ len) :
      firstCause (plainCommandChecks len s) = some .dataLength := by
    simp [plainCommandChecks, dataLengthCheck, hd]
  cases i <;> simp only [instrChecks, Instr.laneCountLegal] at * <;> first | exact plain _ hd | exact lanes _ _ hl hd | skip
  simp [dataLengthCheck, hd]

/-- With legal operands and no INIT yet, NOT_INITIALIZED is the first failure of every command but INIT. -/
theorem firstCause_of_uninitialised {i : Instr} {s : State} (hi : i ≠ .init) (hl : i.laneCountLegal = true)
    (h0 : s.initDone = false) (hd : (dataOperand s).length = dataLength i) :
    firstCause (instrChecks i s) = some .notInitialized := by
  have lanes (n len : Nat) (h : (1 ≤ n && n ≤ 25) = true) (hd : (dataOperand s).length = len) :
      firstCause (laneCommandChecks n len s) = some .notInitialized := by
    simp only [Bool.and_eq_true, decide_eq_true_eq] at h
    have h' : ¬ (n = 0 ∨ 25 < n) := by omega
    simp [laneCommandChecks, laneCountCheck, dataLengthCheck, initialisedCheck, hd, h', h0]
  have plain (len : Nat) (hd : (dataOperand s).length = len) :
      firstCause (plainCommandChecks len s) = some .notInitialized := by
    simp [plainCommandChecks, dataLengthCheck, initialisedCheck, hd, h0]
  cases i <;> simp only [instrChecks, Instr.laneCountLegal] at * <;> first | exact plain _ hd | exact lanes _ _ hl hd | skip
  exact absurd rfl hi

/-- An instruction whose checks pass has its effect and its response. -/
theorem exec_of_passed {i : Instr} {s : State} (hf : s.fault = false) (hl : i.laneCountLegal = true)
    (hd : (dataOperand s).length = dataLength i) (hi : i ≠ .init → s.initDone = true) :
    exec i s = .next (respond (instrOut i s) (instrEffect i s)) := by
  rw [exec_eq_runCommand, runCommand_of_passed hf ((firstCause_instrChecks_eq_none i s).2 ⟨hl, hd, hi⟩)]

/-- The reads of a command's checks and effect: S, STATUS, and the head of the input. -/
theorem instrChecks_congr (i : Instr) {s t : State} (h0 : s.initDone = t.initDone) (hq : s.input = t.input) :
    instrChecks i s = instrChecks i t := by
  cases i <;>
    simp [instrChecks, laneCommandChecks, plainCommandChecks, dataLengthCheck, initialisedCheck, dataOperand, h0, hq]

/-- Everything a step can do. -/
theorem step_cases (s : State) :
    (s.input = [] ∧ step s = .next s) ∨
    (∃ e rest, s.input = e :: rest ∧ (∀ c, e ≠ .command c) ∧ step s = .next (resetEngine s)) ∨
    (∃ c rest i, s.input = .command c :: rest ∧ decode c.word = .instr i ∧
      step s = .next (runCommand (instrChecks i s) (instrEffect i) (instrOut i) s)) ∨
    (∃ c rest e, s.input = .command c :: rest ∧ decode c.word = .illegal e ∧
      step s = .next (takeFault (decodeCause e) s)) := by
  unfold step
  split
  · exact .inl ⟨by assumption, rfl⟩
  · exact .inr (.inl ⟨_, _, by assumption, by simp, rfl⟩)
  · exact .inr (.inl ⟨_, _, by assumption, by simp, rfl⟩)
  · rename_i c rest h
    cases hd : decode c.word with
    | instr i => exact .inr (.inr (.inl ⟨c, rest, i, h, hd, exec_eq_runCommand i s⟩))
    | illegal e => exact .inr (.inr (.inr ⟨c, rest, e, h, hd, rfl⟩))

end Sys2Proof.Machine
end

