-- ==== Sys2Proof/Laws/PerInstr.lean ====
section
/-! SUPPORT. The per-instruction family EncodedFields: the word of an instruction carries its opcode, its N and no reserved bit. -/

namespace Sys2Proof.Laws.EncodedFields

/-- The fields of the word of a well-formed instruction are its own, and no reserved bit is set (R63, R65, R67). -/
def Statement (i : Instr) : Prop :=
  i.WellFormed → opField (encode i) = i.opcode ∧ laneCountField (encode i) = i.laneField ∧ reservedField (encode i) = 0

/-- One proof for all: the word is the number OP + 16 N. -/
theorem of_number (i : Instr) : Statement i := by
  intro h
  have ho := opcode_lt i
  have hw := encode_toNat i h
  rw [opField_eq, laneCountField_eq, reservedField_eq, hw]
  change i.laneField < 32 at h
  omega

theorem init : Statement .init := of_number _
theorem permute : Statement .permute := of_number _
theorem absorb (n : Nat) : Statement (.absorb n) := of_number _
theorem xorLanes (n : Nat) : Statement (.xorLanes n) := of_number _
theorem extract (n : Nat) : Statement (.extract n) := of_number _
theorem absorb576 : Statement .absorb576 := of_number _
theorem absorb832 : Statement .absorb832 := of_number _
theorem absorb1024 : Statement .absorb1024 := of_number _
theorem absorb1088 : Statement .absorb1088 := of_number _
theorem absorb1152 : Statement .absorb1152 := of_number _
theorem absorb1344 : Statement .absorb1344 := of_number _

end Sys2Proof.Laws.EncodedFields
end

