-- ==== Sys2Proof/Laws/Run.lean ====
section
/-! SUPPORT. What one step can do, said once with its fields, and how runs are put together from steps. -/

namespace Sys2Proof.Machine

/-- EVERYTHING A STEP CAN DO. It always answers a state: the engine waits; or is reset; or, at a command, rejects it, takes a
fault, or runs the decoded instruction, whose checks all pass. -/
theorem step_inversion (s : State) : ∃ t, step s = .next t ∧
    ((s.input = [] ∧ t = s) ∨
     (∃ e rest, s.input = e :: rest ∧ e.isCommand = false ∧ t = resetEngine s) ∨
     (∃ c rest, s.input = .command c :: rest ∧ s.fault = true ∧ t = rejectCommand s) ∨
     (∃ c rest cause, s.input = .command c :: rest ∧ s.fault = false ∧ cause ≠ .none ∧
       t = respond [] (s.recordFault cause)) ∨
     (∃ c rest i, s.input = .command c :: rest ∧ s.fault = false ∧ decode c.word = .instr i ∧
       firstCause (instrChecks i s) = none ∧ t = respond (instrOut i s) (instrEffect i s))) := by
  rcases step_cases s with ⟨hq, hs⟩ | ⟨e, r, hq, hne, hs⟩ | ⟨c, r, i, hq, hd, hs⟩ | ⟨c, r, e, hq, hd, hs⟩
  · exact ⟨_, hs, .inl ⟨hq, rfl⟩⟩
  · refine ⟨_, hs, .inr (.inl ⟨e, r, hq, ?_, rfl⟩)⟩
    cases e with
    | command c => exact absurd rfl (hne c)
    | reset => rfl
    | commandCutByReset c => rfl
  · refine ⟨_, hs, ?_⟩
    rcases runCommand_cases (instrChecks i s) (instrEffect i) (instrOut i) s with ⟨hf, h⟩ | ⟨hf, k, hk, h⟩ | ⟨hf, hk, h⟩
    · exact .inr (.inr (.inl ⟨c, r, hq, hf, h⟩))
    · exact .inr (.inr (.inr (.inl ⟨c, r, k, hq, hf, firstCause_ne_none (instrChecks_cause_ne_none i s) hk, h⟩)))
    · exact .inr (.inr (.inr (.inr ⟨c, r, i, hq, hf, hd, hk, h⟩)))
  · refine ⟨_, hs, ?_⟩
    rcases takeFault_cases (decodeCause e) s with ⟨hf, h⟩ | ⟨hf, h⟩
    · exact .inr (.inr (.inl ⟨c, r, hq, hf, h⟩))
    · exact .inr (.inr (.inr (.inl ⟨c, r, _, hq, hf, by cases e <;> simp [decodeCause], h⟩)))

/-- A step at a command whose word decodes runs it. -/
theorem step_of_command {s : State} {c : Command} {rest : List HostEvent} {i : Instr}
    (hq : s.input = .command c :: rest) (hd : decode c.word = .instr i) : step s = exec i s := by
  simp [step, hq, hd]

/-- A step at a command whose word does not decode takes the decoder's fault. -/
theorem step_of_illegal {s : State} {c : Command} {rest : List HostEvent} {e : DecodeError}
    (hq : s.input = .command c :: rest) (hd : decode c.word = .illegal e) :
    step s = .next (takeFault (decodeCause e) s) := by
  simp [step, hq, hd]

/-- An instruction whose checks fail takes the first one's fault. -/
theorem exec_of_failed {i : Instr} {s : State} {c : Cause} (hf : s.fault = false)
    (h : firstCause (instrChecks i s) = some c) : exec i s = .next (respond [] (s.recordFault c)) := by
  rw [exec_eq_runCommand, runCommand_of_failed hf h]

/-- Every instruction answers its command exactly once; OUT is empty unless the checks passed. -/
theorem exec_answered (i : Instr) (s : State) : ∃ t out, exec i s = .next t ∧ Answered s t out ∧
    (out = [] ∨ (s.fault = false ∧ firstCause (instrChecks i s) = none ∧ out = instrOut i s)) := by
  have h := instrEffect_frame i s
  refine ⟨runCommand (instrChecks i s) (instrEffect i) (instrOut i) s, ?_⟩
  rcases runCommand_cases (instrChecks i s) (instrEffect i) (instrOut i) s with ⟨_, e⟩ | ⟨_, c, _, e⟩ | ⟨hf, hk, e⟩
  · exact ⟨[], exec_eq_runCommand i s, by rw [e]; exact ⟨rfl, rfl, rfl⟩, .inl rfl⟩
  · exact ⟨[], exec_eq_runCommand i s, by rw [e]; exact ⟨rfl, rfl, rfl⟩, .inl rfl⟩
  · exact ⟨instrOut i s, exec_eq_runCommand i s, by rw [e]; simp [Answered, h], .inr ⟨hf, hk, rfl⟩⟩

/-- Taking a fault answers the command with an empty OUT. -/
theorem takeFault_answered (c : Cause) (s : State) : Answered s (takeFault c s) [] := by
  rcases takeFault_cases c s with ⟨_, e⟩ | ⟨_, e⟩ <;> rw [e] <;> exact ⟨rfl, rfl, rfl⟩

/-! ## Runs -/

@[simp] theorem runSteps_zero (s : State) : runSteps 0 s = .next s := rfl

/-- A run's first step, then the rest. -/
theorem runSteps_succ (k : Nat) {s t : State} (h : step s = .next t) : runSteps (k + 1) s = runSteps k t := by
  simp [runSteps, h]

/-- Every run answers a state. -/
theorem runSteps_total (k : Nat) (s : State) : ∃ t, runSteps k s = .next t := by
  induction k generalizing s with
  | zero => exact ⟨s, rfl⟩
  | succ k ih =>
    obtain ⟨t, h, _⟩ := step_inversion s
    rw [runSteps_succ k h]
    exact ih t

/-- `runSteps` is the host's run of the machine. -/
theorem runSteps_eq_run (k : Nat) (s : State) : runSteps k s = Host.Core.run Sys2Proof.core k s := by
  induction k generalizing s with
  | zero => rfl
  | succ k ih =>
    obtain ⟨t, h, _⟩ := step_inversion s
    rw [runSteps_succ k h, ih]
    simp only [Host.Core.run]
    have : Sys2Proof.core.step s = .next t := h
    rw [this]

/-! ## The verdict on a run -/

/-- A faulted state decides the verdict, whatever would follow it. -/
theorem runVerdict_of_fault (k : Nat) {s : State} (h : s.fault = true) :
    runVerdict k s = .fault (.commandFaulted s.cause) := by
  cases k <;> simp [runVerdict, h]

/-- The empty run from a state with FAULT = 0. -/
theorem runVerdict_zero {s : State} (h : s.fault = false) : runVerdict 0 s = .next s := by
  simp [runVerdict, h]

/-- While FAULT = 0 the verdict is that of the rest of the run. -/
theorem runVerdict_succ (k : Nat) {s t : State} (hf : s.fault = false) (h : step s = .next t) :
    runVerdict (k + 1) s = runVerdict k t := by
  simp [runVerdict, hf, h]

end Sys2Proof.Machine
end

