-- ==== Sys2Proof/Tests/Slice0.lean ====
section
/-! SUPPORT. The model's own tests: decoding and one-step results against the values of spec/95_test_vectors.md, the
well-formedness smoke tests, and for each statement with hypotheses a state and operands that meet them. -/

namespace Sys2Proof.Tests

open Sys2Proof Sys2Proof.Machine

/-! ## States to test on -/

/-- An engine just after INIT, with the given input. -/
def afterInit (q : List HostEvent) : State :=
  { State.reset with lanes := constLanes 0, initDone := true, input := q }

/-- An engine right after reset, with the given input. -/
def afterReset (q : List HostEvent) : State := { State.reset with input := q }

/-- A faulted engine, with the given input. -/
def faulted (q : List HostEvent) : State := { afterInit q with fault := true, cause := .illegalOpcode }

/-- n zero bytes of DATA. -/
def zeros (n : Nat) : List Byte := List.replicate n 0

/-- DATA whose byte j is j mod 256 (V33). -/
def counting (n : Nat) : List Byte := (List.range n).map fun j => BitVec.ofNat 8 j

/-- A one-block message padded in SHA-3's way: the given bytes, zeros, a last byte 0x80, n bytes in all (P2, P3). -/
def padded (bytes : List Byte) (n : Nat) : List Byte := bytes ++ zeros (n - 1 - bytes.length) ++ [0x80]

/-- What one step answers, seen through f. -/
def observe {α : Type} (f : State → α) (s : State) : Option α :=
  match step s with
  | .next t => some (f t)
  | .fault _ => none
  | .refused _ => none

/-- The newest response. -/
def answer (t : State) : Option (StatusWord × List Byte) := t.responses.head?.map fun r => (r.status, r.out)

/-- Lanes 0 and 24. -/
def corners (t : State) : List Lane := [t.lanes[0], t.lanes[24]]

/-- A state value from its 25 lanes. -/
def ofLanes (l : List Lane) : Lanes := Vector.ofFn fun i => l.getD i.val 0

/-- The cause a verdict reports, if it is a fault. -/
def verdictCause : Host.Outcome State Fault Refusal → Option Cause
  | .next _ => none
  | .fault (.commandFaulted c) => some c
  | .refused _ => none

/-! ## Well-formedness: an ill-formed term for each check, which the check refuses -/

theorem test_wellFormed_refuses_wide_lane_count : ¬ (Instr.absorb 32).WellFormed := by decide
theorem test_wellFormed_accepts_31 : (Instr.extract 31).WellFormed := by decide
theorem test_laneCount_refuses_0 : (Instr.xorLanes 0).laneCountLegal = false := by decide
theorem test_laneCount_refuses_26 : (Instr.absorb 26).laneCountLegal = false := by decide
theorem test_command_refuses_201_bytes : ¬ (Command.mk 0x00000003 (zeros 201)).WellFormed := by decide +kernel

/-! ## Decoding: each word written out from R63 (OP in bits 3:0, N in bits 8:4) and R65 -/

theorem test_decode_init : decode 0b00000000000000000000000_00000_0001 = .instr .init := by decide
theorem test_decode_permute : decode 0b00000000000000000000000_00000_0010 = .instr .permute := by decide
theorem test_decode_absorb : decode 0b00000000000000000000000_10001_0011 = .instr (.absorb 17) := by decide
theorem test_decode_xorLanes : decode 0b00000000000000000000000_00010_0100 = .instr (.xorLanes 2) := by decide
theorem test_decode_extract : decode 0b00000000000000000000000_11001_0101 = .instr (.extract 25) := by decide
theorem test_decode_absorb576 : decode 0b00000000000000000000000_00000_0110 = .instr .absorb576 := by decide
theorem test_decode_absorb832 : decode 0b00000000000000000000000_00000_0111 = .instr .absorb832 := by decide
theorem test_decode_absorb1024 : decode 0b00000000000000000000000_00000_1000 = .instr .absorb1024 := by decide
theorem test_decode_absorb1088 : decode 0b00000000000000000000000_00000_1001 = .instr .absorb1088 := by decide
theorem test_decode_absorb1152 : decode 0b00000000000000000000000_00000_1010 = .instr .absorb1152 := by decide
theorem test_decode_absorb1344 : decode 0b00000000000000000000000_00000_1011 = .instr .absorb1344 := by decide

/-- R182's example: reserved bits are reported before the lane count. -/
theorem test_decode_reserved_first : decode 0x00000203 = .illegal .reservedNonzero := by decide

/-- R182: the opcode is looked at before the reserved bits. -/
theorem test_decode_opcode_first : decode 0xFFFFFFF0 = .illegal .illegalOpcode := by decide
theorem test_decode_opcode_12 : decode 0x0000000C = .illegal .illegalOpcode := by decide
theorem test_decode_top_bit : decode 0x80000005 = .illegal .reservedNonzero := by decide
theorem test_decodeTableWord : decodeTableWord 32 0x45 = some (.extract 4) ∧ decodeTableWord 32 0 = none := by decide

/-! ## The codec (V40 to V42) -/

theorem test_bytesToLane_V40 : bytesToLane [1, 2, 3, 4, 5, 6, 7, 8] = 0x0807060504030201 := by decide
theorem test_laneToBytes_V42 : laneToBytes 0x8000000000000000 = [0, 0, 0, 0, 0, 0, 0, 0x80] := by decide

/-! ## The sub-steps (V11 to V23) -/

/-- e00: only bit 0 of lane (0, 0) set. -/
def e00 : Lanes := (constLanes 0).set 0 1

theorem test_theta_V11 : theta e00 = ofLanes
    [1, 1, 0, 0, 2, 0, 1, 0, 0, 2, 0, 1, 0, 0, 2, 0, 1, 0, 0, 2, 0, 1, 0, 0, 2] := by decide +kernel

theorem test_theta_twice_V12 : theta (theta e00) = ofLanes
    [1, 0, 1, 4, 0, 0, 0, 1, 4, 0, 0, 0, 1, 4, 0, 0, 0, 1, 4, 0, 0, 0, 1, 4, 0] := by decide +kernel

theorem test_rho_V13 : rho (constLanes 1) = ofLanes
    [0x0000000000000001, 0x0000000000000002, 0x4000000000000000, 0x0000000010000000, 0x0000000008000000,
     0x0000001000000000, 0x0000100000000000, 0x0000000000000040, 0x0080000000000000, 0x0000000000100000,
     0x0000000000000008, 0x0000000000000400, 0x0000080000000000, 0x0000000002000000, 0x0000008000000000,
     0x0000020000000000, 0x0000200000000000, 0x0000000000008000, 0x0000000000200000, 0x0000000000000100,
     0x0000000000040000, 0x0000000000000004, 0x2000000000000000, 0x0100000000000000, 0x0000000000004000] := by
  decide +kernel

theorem test_pi_V15 : pi (Vector.ofFn fun i => BitVec.ofNat 64 i.val) = ofLanes
    [0, 6, 12, 18, 24, 3, 9, 10, 16, 22, 1, 7, 13, 19, 20, 4, 5, 11, 17, 23, 2, 8, 14, 15, 21] := by decide +kernel

theorem test_chi_V17 : chi ((constLanes 0).set 1 1) = ofLanes [0, 1, 0, 0, 1] := by decide +kernel

theorem test_round_V23 : keccakRound e00 1 = ofLanes
    [0x0000000000008083, 0x0000100000000000, 0x0000000000008000, 0x0000000000000001, 0x0000100000008000,
     0x0000000000000000, 0x0000200000200000, 0x0000000000000000, 0x0000200000000000, 0x0000000000200000,
     0x0000000000000002, 0x0000000000000200, 0x0000000000000000, 0x0000000000000202, 0x0000000000000000,
     0x0000000010000400, 0x0000000000000000, 0x0000000000000400, 0x0000000010000000, 0x0000000000000000,
     0x0000010000000000, 0x0000000000000000, 0x0000010000000004, 0x0000000000000000, 0x0000000000000004] := by
  decide +kernel

/-! ## The commands, one step each -/

theorem test_init_V1 :
    observe (fun t => (t.lanes, answer t)) (afterReset [commandOf .init []]) =
      some (constLanes 0, some (0x00000001, [])) := by decide +kernel

/-- V20, the published known answer. -/
theorem test_permute_V20 :
    observe (fun t => (t.lanes, statusWord t)) (afterInit [commandOf .permute []]) = some (ofLanes
      [0xF1258F7940E1DDE7, 0x84D5CCF933C0478A, 0xD598261EA65AA9EE, 0xBD1547306F80494D, 0x8B284E056253D057,
       0xFF97A42D7F8E6FD4, 0x90FEE5A0A44647C4, 0x8C5BDA0CD6192E76, 0xAD30A6F71B19059C, 0x30935AB7D08FFC64,
       0xEB5AA93F2317D635, 0xA9A6E6260D712103, 0x81A57C16DBCF555F, 0x43B831CD0347C826, 0x01F22F1A11A5569F,
       0x05E5635A21D9AE61, 0x64BEFEF28CC970F2, 0x613670957BC46611, 0xB87C5A554FD00ECB, 0x8C3EE88A1CCF32C8,
       0x940C7922AE3A2614, 0x1841F924A2C509E4, 0x16F53526E70465C2, 0x75F644E97F30A13B, 0xEAF1FF7B5CECA249],
      0x00000001) := by decide +kernel

theorem test_absorb_V30 :
    observe corners (afterInit [commandOf (.absorb 1) [1, 2, 3, 4, 5, 6, 7, 8]]) =
      some [0xF1E1951BE6EE1820, 0x49B6D85F2381A376] := by decide +kernel

theorem test_xorLanes_V35 :
    observe (fun t => t.lanes) (afterInit [commandOf (.xorLanes 1) [1, 2, 3, 4, 5, 6, 7, 8]]) =
      some (ofLanes [0x0807060504030201]) := by decide +kernel

/-- From P5: EXTRACT 2 of the end state's two leading lanes. -/
theorem test_extract_P5 :
    observe answer { afterInit [commandOf (.extract 2) []] with
        lanes := ofLanes [0xF1E1951BE6EE1820, 0x52546F1F77FDB401] } =
      some (some (0x00000001, [0x20, 0x18, 0xee, 0xe6, 0x1b, 0x95, 0xe1, 0xf1,
        0x01, 0xb4, 0xfd, 0x77, 0x1f, 0x6f, 0x54, 0x52])) := by decide +kernel

/-- P3: the first digest lanes of SHA3-512("abc"). -/
theorem test_absorb576_P3 :
    observe corners (afterInit [commandOf .absorb576 (padded [0x61, 0x62, 0x63, 0x06] 72)]) =
      some [0x8A16571A0B8551B7, 0x55389E459AE79796] := by decide +kernel

/-- P2: SHA3-256 of the empty message; its first eight digest bytes are a7ffc6f8bf1ed766. -/
theorem test_absorb1088_P2 :
    observe corners (afterInit [commandOf .absorb1088 (padded [0x06] 136)]) =
      some [0x66D71EBFF8C6FFA7, 0x92136E0EFB7B70E5] := by decide +kernel

/-- The byte counts of R142 to R147. -/
theorem test_fixed_lengths : fixedAbsorbs.map (fun p => dataLength p.1) = [72, 104, 128, 136, 144, 168] := by decide

theorem test_absorb1344_V33 :
    observe corners (afterInit [commandOf .absorb1344 (counting 168)]) =
      some [0x32929C2817E2B55A, 0xDBD0C50A11246961] := by decide +kernel

/-! ## Faults: the table of spec/95_test_vectors.md, and reset -/

/-- Rows "reset": word, DATA length, response STATUS. -/
theorem test_faults_after_reset :
    ∀ r ∈ [((0x00000002 : CommandWord), 0, (0x00000052 : StatusWord)), (0x00000015, 0, 0x52), (0x00000203, 0, 0x22),
        (0x000001A3, 0, 0x32), (0x00000002, 8, 0x42)],
      observe answer (afterReset [.command ⟨r.1, zeros r.2.1⟩]) = some (some (r.2.2, [])) := by decide +kernel

/-- Rows "after INIT". -/
theorem test_faults_after_init :
    ∀ r ∈ [((0x00000000 : CommandWord), 0, (0x00000013 : StatusWord)), (0x0000000C, 0, 0x13), (0x0000000F, 0, 0x13),
        (0x00000201, 0, 0x23), (0x00000012, 0, 0x23), (0x00000096, 72, 0x23), (0x80000005, 0, 0x23),
        (0x00000003, 0, 0x33), (0x000001A3, 200, 0x33), (0x00000004, 0, 0x33), (0x00000005, 0, 0x33),
        (0x000001F5, 0, 0x33), (0x00000013, 7, 0x43), (0x00000013, 9, 0x43), (0x00000006, 64, 0x43),
        (0x00000015, 8, 0x43), (0x00000001, 1, 0x43)],
      observe (fun t => (answer t, t.lanes)) (afterInit [.command ⟨r.1, zeros r.2.1⟩]) =
        some (some (r.2.2, []), constLanes 0) := by decide +kernel

/-- Row "after any fault": rejected, CAUSE kept, even for INIT. -/
theorem test_rejected_init :
    observe answer (faulted [commandOf .init []]) = some (some (0x00000013, [])) := by decide +kernel

theorem test_reset_clears_fault :
    observe (fun t => (statusWord t, t.responses, t.input)) (faulted [.reset, commandOf .init []]) =
      some (0x00000000, [], [commandOf .init []]) := by decide +kernel

theorem test_reset_cuts_command :
    observe (fun t => (statusWord t, t.responses, t.input)) (afterInit [.commandCutByReset ⟨2, []⟩]) =
      some (0x00000000, [], []) := by decide +kernel

/-- R184, D9: a reset and an INIT after a fault do not make the run a success. -/
theorem test_verdict_is_never_cleared :
    verdictCause (runVerdict 3 (afterReset [commandOf .permute [], .reset, commandOf .init []])) = some .notInitialized ∧
    verdictCause (runVerdict 2 (afterReset [commandOf .init [], commandOf (.extract 1) []])) = none := by decide +kernel

theorem test_withFetchWord_runs_init :
    observe statusWord (State.reset.withFetchWord 32 1) = some 0x00000001 := by decide +kernel

/-! ## The assembler (R72 to R74) -/

theorem test_assemble_absorb :
    assembleText "absorb 1, x\"01 02 0304050607 08\"".toList = some [⟨0x00000013, [1, 2, 3, 4, 5, 6, 7, 8]⟩] := by
  decide +kernel
theorem test_assemble_extract : assembleText "  EXTRACT 25".toList = some [⟨0x00000195, []⟩] := by decide +kernel
theorem test_assemble_squeeze : assembleText "Squeeze 4".toList = some [⟨0x00000002, []⟩, ⟨0x00000045, []⟩] := by
  decide +kernel
theorem test_assemble_extract_bytes : assembleText "EXTRACT_BYTES 32".toList = some [⟨0x00000045, []⟩] := by
  decide +kernel
theorem test_assemble_absorb_bits : assemble (.absorbBits 576 (zeros 72)) = some [⟨0x00000006, zeros 72⟩] := by
  decide +kernel
theorem test_assemble_refuses_count : assembleText "EXTRACT 26".toList = none := by decide +kernel
theorem test_assemble_refuses_data : assembleText "ABSORB 1, x\"01\"".toList = none := by decide +kernel
theorem test_assemble_program :
    assembleProgram ["INIT".toList, "PERMUTE".toList] = some [⟨0x00000001, []⟩, ⟨0x00000002, []⟩] := by decide +kernel

/-! ## Witnesses: for each statement with hypotheses, what meets them all -/

theorem witness_DecodeOfEncode : (Instr.absorb 31).WellFormed ∧ Instr.init.WellFormed := by decide
theorem witness_EncodeOfDecode : decode 0x000001F5 = .instr (.extract 31) := by decide
theorem witness_AssemblerWords : ∃ d : List Byte, (1 ≤ 25 ∧ 25 ≤ 25 ∧ d.length = 8 * 25) ∧ ∃ e : List Byte, e.length = 72 ∧
    ∃ f : List Byte, f.length = 168 := ⟨zeros 200, by decide +kernel, zeros 72, by decide +kernel, zeros 168, by decide +kernel⟩
theorem witness_AssembledCommandsPassOperandChecks :
    assemble (.squeeze 25) = some [⟨0x00000002, []⟩, ⟨0x00000195, []⟩] := by decide +kernel
theorem witness_PseudoInstructionsExpand : (1 ≤ 25 ∧ 25 ≤ 25) ∧ (0 = 0 ∨ 25 < 0) ∧ (26 = 0 ∨ 25 < 26) := by decide
theorem witness_BytesSurviveTheCodec : (zeros 8).length = 8 := by decide
theorem witness_ThetaLinearNotInvolutive : ∀ x < 5,
    lane (constLanes 0) x 0 ^^^ lane (constLanes 0) x 1 ^^^ lane (constLanes 0) x 2 ^^^ lane (constLanes 0) x 3 ^^^
      lane (constLanes 0) x 4 = 0 := by decide +kernel
theorem witness_RotationTableFollowsItsWalk : ∃ walk : Nat → Nat × Nat, walk 0 = (1, 0) ∧
    ∀ t, walk (t + 1) = ((walk t).2, (2 * (walk t).1 + 3 * (walk t).2) % 5) :=
  ⟨fun t => Nat.rec (1, 0) (fun _ p => (p.2, (2 * p.1 + 3 * p.2) % 5)) t, rfl, fun _ => rfl⟩
theorem witness_RoundConstantsFollowTheirRegister : ∃ x : Nat → Nat, x 0 = 1 ∧
    ∀ t, x (t + 1) = if 2 * x t < 256 then 2 * x t else (2 * x t) ^^^ 0x171 :=
  ⟨fun t => Nat.rec 1 (fun _ p => if 2 * p < 256 then 2 * p else (2 * p) ^^^ 0x171) t, rfl, fun _ => rfl⟩
theorem witness_XorLanesChangesLeadingLanesOnly :
    (zeros 8).length = 8 * 1 ∧ (zeros 200).length = 8 * 25 ∧ (0 < 1 ∧ 1 ≤ 24) := by decide +kernel
theorem witness_InitZeroesTheState :
    (afterReset [commandOf .init []]).fault = false ∧ dataOperand (afterReset [commandOf .init []]) = [] := ⟨rfl, rfl⟩
theorem witness_Ready_no_data : Ready (afterInit [commandOf .permute []]) 0 := ⟨rfl, rfl, rfl⟩
theorem witness_Ready_one_lane : Ready (afterInit [commandOf (.absorb 1) (zeros 8)]) (8 * 1) := ⟨rfl, rfl, by decide⟩
theorem witness_Ready_all_lanes : Ready (afterInit [commandOf (.xorLanes 25) (zeros 200)]) (8 * 25) :=
  ⟨rfl, rfl, by decide +kernel⟩
theorem witness_Ready_fixed : ∀ p ∈ fixedAbsorbs,
    (dataOperand (afterInit [commandOf p.1 (zeros (8 * p.2))])).length = 8 * p.2 := by decide +kernel
theorem witness_CommandFaultsAsTheTableSays :
    (afterInit [.command ⟨0x00000203, []⟩]).input = .command ⟨0x00000203, []⟩ :: [] ∧
    ((afterInit [.command ⟨0x00000203, []⟩]).fault = false → (afterInit [.command ⟨0x00000203, []⟩]).cause = .none) ∧
    referenceCause 0x00000203 0 true = .reservedNonzero ∧ referenceCause 0x00000195 0 true = .none := by
  refine ⟨rfl, fun _ => rfl, ?_⟩
  decide
theorem witness_IllegalWordsFault :
    (((0x0000000C : CommandWord).extractLsb' 0 4).toNat = 0 ∨ 0xC ≤ ((0x0000000C : CommandWord).extractLsb' 0 4).toNat) ∧
    (¬ (((0x00000096 : CommandWord).extractLsb' 0 4).toNat = 0 ∨
        0xC ≤ ((0x00000096 : CommandWord).extractLsb' 0 4).toNat) ∧
      (0x00000096 : CommandWord).extractLsb' 4 5 ≠ 0) ∧
    (0x80000005 : CommandWord).extractLsb' 9 23 ≠ 0 := by decide
theorem witness_LaneCountOutOfRangeFaults : (0 = 0 ∨ 25 < 0) ∧ (26 = 0 ∨ 25 < 26) ∧ State.reset.fault = false := by decide
theorem witness_WrongDataLengthFaults : (Instr.absorb 1).laneCountLegal = true ∧
    (dataOperand (afterInit [commandOf (.absorb 1) (zeros 7)])).length ≠ 8 * 1 ∧
    (dataOperand (afterInit [commandOf .init (zeros 1)])).length ≠ 0 := by decide
theorem witness_InitDoneRule_set : ∃ t, exec .init (afterReset [commandOf .init []]) = .next t ∧
    step (afterReset [commandOf .init []]) = .next t ∧
    (afterReset [commandOf .init []]).initDone = false ∧ t.fault = false ∧ t.initDone = true := ⟨_, rfl, rfl, rfl, rfl, rfl⟩
theorem witness_InitDoneRule_cleared : ∃ t, step (afterInit [.reset]) = .next t ∧
    (afterInit [.reset]).initDone = true ∧ t.initDone = false := ⟨_, rfl, rfl, rfl⟩
theorem witness_InitDoneRule_refused : Instr.extract 25 ≠ .init ∧ (Instr.extract 25).laneCountLegal = true ∧
    (afterReset [commandOf (.extract 25) []]).fault = false ∧ (afterReset [commandOf (.extract 25) []]).initDone = false ∧
    (dataOperand (afterReset [commandOf (.extract 25) []])).length = dataLength (.extract 25) := by
  refine ⟨by decide, by decide, rfl, rfl, rfl⟩
theorem witness_FaultPersistsUntilReset : (faulted [commandOf .init [], .command ⟨0, []⟩]).fault = true ∧
    ∀ e ∈ (faulted [commandOf .init [], .command ⟨0, []⟩]).input, e.isCommand = true := ⟨rfl, by decide⟩
theorem witness_FirstCommandMustBeInit : (afterReset [commandOf .permute [], commandOf .init []]).fault = false ∧
    (afterReset [commandOf .permute [], commandOf .init []]).initDone = false ∧
    decode (encode .permute) = .instr .permute ∧ Instr.permute ≠ .init ∧ Instr.permute.laneCountLegal = true ∧
    ([] : List Byte).length = dataLength .permute ∧ ∀ e ∈ [commandOf .init []], e.isCommand = true := by
  refine ⟨rfl, rfl, ?_⟩
  decide
theorem witness_ResetClearsStatus : (faulted [.reset]).input = .reset :: [] ∧ HostEvent.reset.isCommand = false ∧
    (HostEvent.commandCutByReset ⟨2, []⟩).isCommand = false := ⟨rfl, rfl, rfl⟩
theorem witness_StepRunsTheDecodedCommand :
    (afterInit [.command ⟨0x00000045, []⟩]).input = .command ⟨0x00000045, []⟩ :: [] ∧
    decode 0x00000045 = .instr (.extract 4) := ⟨rfl, by decide⟩
theorem witness_IdleEngineWaits : State.reset.input = [] := rfl
theorem witness_ExecFrame : ∃ t, exec .permute (afterReset [commandOf .permute []]) = .next t ∧ t.fault = true ∧
    (∃ u, exec (.extract 1) (afterInit [commandOf (.extract 1) []]) = .next u ∧ u.fault = false) ∧
    (faulted []).fault = true := ⟨_, rfl, rfl, ⟨_, rfl, rfl⟩, rfl⟩
theorem witness_InvariantKeptByEveryStep : Inv (afterInit [.reset]) ∧ ∃ t, step (afterInit [.reset]) = .next t := by
  refine ⟨⟨?_, ?_⟩, _, rfl⟩
  · exact ⟨fun h => absurd h (by decide), fun h => absurd rfl h⟩
  · intro r hr; exact absurd hr (List.not_mem_nil)
theorem witness_EqualTuplesEqualResponses :
    archTuple (afterInit [commandOf (.extract 1) []]) =
      archTuple { afterInit [commandOf (.extract 1) []] with responses := [⟨1, []⟩] } ∧
    ∀ e ∈ (afterInit [commandOf (.extract 1) []]).input, e.isCommand = true := ⟨rfl, by decide⟩
theorem witness_ResetContentsUnobservable :
    SameVisible { afterReset [commandOf .init [], .reset] with lanes := constLanes 0 }
      { afterReset [commandOf .init [], .reset] with lanes := constLanes 1 } ∧ constLanes 0 ≠ constLanes 1 :=
  ⟨⟨rfl, rfl, rfl, rfl, fun h => absurd h (by decide)⟩, by decide +kernel⟩
theorem witness_FixedAbsorbEqualsGeneralAbsorb : (Instr.absorb1344, 21) ∈ fixedAbsorbs := by decide
theorem witness_FixedAbsorbEqualsGeneralAbsorb_cause : ∃ t,
    exec .absorb576 { faulted [] with cause := .laneCountRange } = .next t ∧ t.cause = .laneCountRange := ⟨_, rfl, rfl⟩
theorem witness_AbsorbIsXorThenPermute : (zeros 72).length = 8 * 9 ∧ (afterInit []).fault = false ∧
    (afterInit []).initDone = true ∧ (Instr.absorb576 = .absorb 9 ∨ (Instr.absorb576, 9) ∈ fixedAbsorbs) := by
  decide +kernel
theorem witness_XorLanesTwiceRestores :
    (afterInit [commandOf (.xorLanes 1) (zeros 8), commandOf (.xorLanes 1) (zeros 8)]).input =
      [commandOf (.xorLanes 1) (zeros 8), commandOf (.xorLanes 1) (zeros 8)] ∧ (zeros 8).length = 8 * 1 := ⟨rfl, rfl⟩
theorem witness_AbsorbOfZeroesIsPermute : (afterInit []).fault = false ∧ (afterInit []).initDone = true ∧
    1 ≤ 25 ∧ 25 ≤ 25 := ⟨rfl, rfl, by decide⟩
theorem witness_ExtractIsIdempotent :
    (afterInit [commandOf (.extract 25) [], commandOf (.extract 25) []]).fault = false ∧
    (afterInit [commandOf (.extract 25) [], commandOf (.extract 25) []]).initDone = true := ⟨rfl, rfl⟩
theorem witness_ExtractXorRoundTrip :
    (afterInit [commandOf (.extract 2) []]).input = [commandOf (.extract 2) []] ∧
    (afterReset [commandOf .init [], commandOf (.xorLanes 2) (zeros 16)]).fault = false := ⟨rfl, rfl⟩
theorem witness_EnginesAreIndependent : ∃ q r, (0 : Nat) ≠ 1 ∧
    platformStep [afterReset [commandOf .init []], afterInit [.reset]] 0 = .next q ∧ platformStep q 1 = .next r :=
  ⟨_, _, by decide, rfl, rfl⟩

end Sys2Proof.Tests
end

section
/-! PROOFS. What two engines do in lockstep: the same responses, and states that stay related (R33). -/

namespace Sys2Proof.Machine

/-! ## The input and INIT_DONE over one step -/

/-- Every step consumes the host's next event, of whatever kind. -/
theorem step_input {s t : State} (h : step s = .next t) : t.input = s.input.tail := by
  obtain ⟨u, hu, hcases⟩ := step_inversion s
  cases hu.symm.trans h
  rcases hcases with ⟨hq, rfl⟩ | ⟨e, rest, -, -, rfl⟩ | ⟨c, rest, hq, -, rfl⟩ | ⟨c, rest, cause, hq, -, -, rfl⟩ |
    ⟨c, rest, i, hq, -, -, -, rfl⟩
  · simp [hq]
  · rfl
  · simp [rejectCommand, hq]
  · simp [hq]
  · obtain ⟨-, -, hin, -, -, -⟩ := instrEffect_frame i s
    simp [hin, hq]

@[simp] theorem instrEffect_init_initDone (s : State) : (instrEffect .init s).initDone = true := rfl

/-- R80: an INIT that does not fault has completed. -/
theorem initDone_of_exec_init {s t : State} (h : exec .init s = .next t) (hf : t.fault = false) :
    t.initDone = true := by
  rw [exec_eq_runCommand] at h
  cases h
  rcases runCommand_cases (instrChecks .init s) (instrEffect .init) (instrOut .init) s with
    ⟨hs, e⟩ | ⟨-, c, -, e⟩ | ⟨-, -, e⟩ <;> rw [e] at hf ⊢
  · simp [rejectCommand, hs] at hf
  · simp at hf
  · simp

/-- Everything a step can do to INIT_DONE: it keeps it, or clears it at a reset, or sets it at an INIT whose engine is not
faulted (R28). -/
theorem step_initDone_cases {s t : State} (h : step s = .next t) :
    t.initDone = s.initDone ∨
    (t.initDone = false ∧ ∃ e rest, s.input = e :: rest ∧ e.isCommand = false) ∨
    (t.initDone = true ∧ s.fault = false ∧ ∃ c rest, s.input = .command c :: rest ∧ decode c.word = .instr .init) := by
  obtain ⟨u, hu, hcases⟩ := step_inversion s
  cases hu.symm.trans h
  rcases hcases with ⟨-, rfl⟩ | ⟨e, rest, hq, he, rfl⟩ | ⟨c, rest, -, -, rfl⟩ | ⟨c, rest, cause, -, -, -, rfl⟩ |
    ⟨c, rest, i, hq, hf, hd, -, rfl⟩
  · exact .inl rfl
  · exact .inr (.inl ⟨rfl, e, rest, hq, he⟩)
  · exact .inl rfl
  · exact .inl rfl
  · by_cases hi : i = .init
    · subst hi
      exact .inr (.inr ⟨rfl, hf, c, rest, hq, hd⟩)
    · obtain ⟨-, -, -, -, -, hinit⟩ := instrEffect_frame i s
      exact .inl (hinit hi)

/-- Settles O37: INIT_DONE over one step by cases on what the step does, and the refusal from the first failing check. -/
theorem initDoneRule : Obligations.InitDoneRule := by
  refine ⟨fun s t => initDone_of_exec_init, fun s t h h0 h1 => ?_, fun s t h h1 h0 => ?_,
    fun s i hi hl hf h0 hd => ?_⟩
  · rcases step_initDone_cases h with hkeep | ⟨hclear, -⟩ | ⟨-, hset⟩
    · simp [h0, h1] at hkeep
    · simp [h1] at hclear
    · exact hset
  · rcases step_initDone_cases h with hkeep | ⟨-, hreset⟩ | ⟨hset, -⟩
    · simp [h0, h1] at hkeep
    · exact hreset
    · simp [h0] at hset
  · exact ⟨_, exec_of_failed hf (firstCause_of_uninitialised hi hl h0 hd), rfl, rfl, rfl, h0, rfl, rfl, rfl⟩

/-! ## Two machines in lockstep -/

/-- From `s` and `t`, the outcomes `a` and `b` are states related by `R`, each reached by adding the same responses. -/
def AnswersAlike (R : State → State → Prop) (s t : State) (a b : Host.Outcome State Fault Refusal) : Prop :=
  ∃ s' t' new, a = .next s' ∧ b = .next t' ∧ R s' t' ∧ s'.responses = new ++ s.responses ∧
    t'.responses = new ++ t.responses

/-- Doing nothing adds no response. -/
theorem answersAlike_next {R : State → State → Prop} {s t : State} (h : R s t) :
    AnswersAlike R s t (.next s) (.next t) :=
  ⟨s, t, [], rfl, rfl, h, rfl, rfl⟩

/-- A relation that single steps keep, adding equal responses, is so kept by runs of any length. -/
theorem runSteps_answersAlike {R : State → State → Prop}
    (hstep : ∀ s t, R s t → AnswersAlike R s t (step s) (step t)) (k : Nat) {s t : State} (h : R s t) :
    AnswersAlike R s t (runSteps k s) (runSteps k t) := by
  induction k generalizing s t with
  | zero => exact answersAlike_next h
  | succ k ih =>
    obtain ⟨s₁, t₁, first, hs, ht, h₁, hrs, hrt⟩ := hstep s t h
    obtain ⟨s₂, t₂, later, hs', ht', h₂, hrs', hrt'⟩ := ih h₁
    rw [runSteps_succ k hs, runSteps_succ k ht]
    exact ⟨s₂, t₂, later ++ first, hs', ht', h₂, by rw [hrs', hrs, List.append_assoc],
      by rw [hrt', hrt, List.append_assoc]⟩

/-! ## Engines with equal tuples and equal inputs -/

/-- The architectural state and the pending input agree (R33); the responses given and the free-value source may differ. -/
def SameEngine (s t : State) : Prop := archTuple s = archTuple t ∧ s.input = t.input

theorem sameEngine_iff {s t : State} : SameEngine s t ↔
    s.lanes = t.lanes ∧ s.initDone = t.initDone ∧ s.fault = t.fault ∧ s.cause = t.cause ∧ s.input = t.input := by
  simp [SameEngine, archTuple, and_assoc]

section
variable {s t : State} (h : SameEngine s t)
include h

theorem SameEngine.recordFault (c : Cause) : SameEngine (s.recordFault c) (t.recordFault c) := by
  obtain ⟨hl, hi, -, -, hq⟩ := sameEngine_iff.1 h
  exact sameEngine_iff.2 ⟨hl, hi, rfl, rfl, hq⟩

theorem SameEngine.updateLanes (g : Lanes → List Byte → Lanes) :
    SameEngine (updateLanes g s) (updateLanes g t) := by
  obtain ⟨hl, hi, hf, hc, hq⟩ := sameEngine_iff.1 h
  exact sameEngine_iff.2 ⟨by simp [hl, dataOperand, hq], hi, hf, hc, hq⟩

/-- An instruction's effect is a function of the tuple and the input. -/
theorem SameEngine.instrEffect (i : Instr) : SameEngine (instrEffect i s) (instrEffect i t) := by
  cases i with
  | init =>
    obtain ⟨-, -, hf, hc, hq⟩ := sameEngine_iff.1 h
    exact sameEngine_iff.2 ⟨rfl, rfl, hf, hc, hq⟩
  | extract n => exact h
  | _ => exact h.updateLanes _

/-- An instruction's OUT is a function of S. -/
theorem SameEngine.instrOut_eq (i : Instr) : instrOut i s = instrOut i t := by
  obtain ⟨hl, -⟩ := sameEngine_iff.1 h
  cases i with
  | extract n => simp [instrOut, hl]
  | _ => rfl

end

/-- Responding with the same OUT from two states that agree adds the same response (STATUS, OUT) to both (R61). -/
theorem respond_answersAlike {s t a b : State} (h : SameEngine a b) (hs : a.responses = s.responses)
    (ht : b.responses = t.responses) (out : List Byte) :
    AnswersAlike SameEngine s t (.next (respond out a)) (.next (respond out b)) := by
  obtain ⟨hl, hi, hf, hc, hq⟩ := sameEngine_iff.1 h
  refine ⟨_, _, [⟨statusWord a, out⟩], rfl, rfl, sameEngine_iff.2 ⟨hl, hi, hf, hc, by simp [hq]⟩, by simp [hs], ?_⟩
  simp [ht, statusWord_congr b hi hf hc]

/-- The decoder's fault is answered alike. -/
theorem takeFault_answersAlike {s t : State} (h : SameEngine s t) (c : Cause) :
    AnswersAlike SameEngine s t (.next (takeFault c s)) (.next (takeFault c t)) := by
  obtain ⟨-, -, hf, -, -⟩ := sameEngine_iff.1 h
  cases hs : s.fault <;> simp only [takeFault, ← hf, hs]
  · exact respond_answersAlike (h.recordFault c) rfl rfl []
  · exact respond_answersAlike h rfl rfl []

/-- Every instruction is answered alike: the same check decides, and the effect and OUT read only what agrees. -/
theorem exec_answersAlike {s t : State} (h : SameEngine s t) (i : Instr) :
    AnswersAlike SameEngine s t (exec i s) (exec i t) := by
  obtain ⟨-, hi, hf, -, hq⟩ := sameEngine_iff.1 h
  have hchecks := instrChecks_congr i hi hq
  rw [exec_eq_runCommand, exec_eq_runCommand, ← hchecks]
  cases hs : s.fault with
  | true =>
    rw [runCommand_of_fault hs, runCommand_of_fault (hf ▸ hs)]
    exact respond_answersAlike h rfl rfl []
  | false =>
    cases hc : firstCause (instrChecks i s) with
    | some c =>
      rw [runCommand_of_failed hs hc, runCommand_of_failed (hf ▸ hs) hc]
      exact respond_answersAlike (h.recordFault c) rfl rfl []
    | none =>
      obtain ⟨-, -, -, hrs, -, -⟩ := instrEffect_frame i s
      obtain ⟨-, -, -, hrt, -, -⟩ := instrEffect_frame i t
      rw [runCommand_of_passed hs hc, runCommand_of_passed (hf ▸ hs) hc, h.instrOut_eq i]
      exact respond_answersAlike (h.instrEffect i) hrs hrt _

/-- One step of two engines that agree, with no reset pending (a reset would read the free-value source). -/
theorem step_answersAlike {s t : State} (h : SameEngine s t) (hcmd : ∀ e ∈ s.input, e.isCommand = true) :
    AnswersAlike SameEngine s t (step s) (step t) := by
  have hq : s.input = t.input := h.2
  cases hs : s.input with
  | nil =>
    have hidle {u : State} (hu : u.input = []) : step u = .next u := by simp [step, hu]
    rw [hidle hs, hidle (hq ▸ hs)]
    exact answersAlike_next h
  | cons e rest =>
    cases e with
    | command c =>
      cases hd : decode c.word with
      | instr i =>
        rw [step_of_command hs hd, step_of_command (hq ▸ hs) hd]
        exact exec_answersAlike h i
      | illegal err =>
        rw [step_of_illegal hs hd, step_of_illegal (hq ▸ hs) hd]
        exact takeFault_answersAlike h _
    | reset => simp [hs, HostEvent.isCommand] at hcmd
    | commandCutByReset c => simp [hs, HostEvent.isCommand] at hcmd

/-- The relation of R33's claim: equal tuples, equal inputs, and commands alone still to come. -/
def SameEngineOnCommands (s t : State) : Prop := SameEngine s t ∧ ∀ e ∈ s.input, e.isCommand = true

theorem step_answersAlike_onCommands (s t : State) (h : SameEngineOnCommands s t) :
    AnswersAlike SameEngineOnCommands s t (step s) (step t) := by
  obtain ⟨hsame, hcmd⟩ := h
  obtain ⟨s', t', new, hs, ht, hsame', hrs, hrt⟩ := step_answersAlike hsame hcmd
  have hcmd' : ∀ e ∈ s'.input, e.isCommand = true := fun e he =>
    hcmd e (List.mem_of_mem_tail (step_input hs ▸ he))
  exact ⟨s', t', new, hs, ht, ⟨hsame', hcmd'⟩, hrs, hrt⟩

/-- Settles O48: the step lemma, carried along the run. -/
theorem equalTuplesEqualResponses : Obligations.EqualTuplesEqualResponses := by
  intro k s t harch hq hcmd
  obtain ⟨s', t', new, hs, ht, ⟨⟨harch', -⟩, -⟩, hrs, hrt⟩ :=
    runSteps_answersAlike step_answersAlike_onCommands k (s := s) (t := t) ⟨⟨harch, hq⟩, hcmd⟩
  exact ⟨s', t', new, hs, ht, harch', hrs, hrt⟩

end Sys2Proof.Machine
end

section
/-! PROOFS. The lane codec and the state's byte view (R41, R44, R45). -/

namespace Sys2Proof.Machine

/-! ## A lane as the number of its bytes -/

/-- The little-endian number is the sum of its bytes, byte k weighted 2^(8k) (R44). -/
theorem leNat_eq_sum (bs : List Byte) :
    leNat bs = ∑ k ∈ Finset.range bs.length, (bs.getD k 0).toNat * 2 ^ (8 * k) := by
  induction bs with
  | nil => rfl
  | cons b bs ih =>
    have hshift (k : Nat) :
        (bs.getD k 0).toNat * 2 ^ (8 * (k + 1)) = 2 ^ 8 * ((bs.getD k 0).toNat * 2 ^ (8 * k)) := by ring
    simp only [List.length_cons, Finset.sum_range_succ', List.getD_cons_succ, List.getD_cons_zero, hshift,
      ← Finset.mul_sum, ← ih, leNat]
    ring

/-- Eight bytes fit a lane: no bit of their number is lost. -/
theorem bytesToLane_toNat {bs : List Byte} (h : bs.length = 8) : (bytesToLane bs).toNat = leNat bs := by
  have hlt := leNat_lt bs
  rw [h] at hlt
  exact Nat.mod_eq_of_lt hlt

/-- Settles O7: the sum is `leNat_eq_sum` at eight bytes, the single bytes are `bytesToLane_byte`. -/
theorem bytesToLaneIsLittleEndianSum : Obligations.BytesToLaneIsLittleEndianSum := by
  refine ⟨fun b => ⟨?_, fun k => ?_⟩, by decide⟩
  · have hlen : b.toList.length = 8 := b.length_toList
    rw [bytesToLane_toNat hlen, leNat_eq_sum, hlen]
    simp [Finset.sum_range_succ]
  · rw [bytesToLane_byte _ _ k.isLt, List.getD_eq_getElem _ _ (by simp)]
    simp

/-- Settles O8: the codec's laws say it for every lane; the worked example is evaluated. -/
theorem laneToBytesAreTheLaneBytes : Obligations.LaneToBytesAreTheLaneBytes :=
  ⟨fun l => ⟨laneToBytes_length l, laneToBytes_getElem? l⟩, by decide⟩

/-! ## The state view -/

/-- StateByte(k) is a byte of lane k div 8, which exists for every k below 200 (R41). -/
theorem stateByte_eq (a : Lanes) (k : Nat) (hk : k < 200) :
    stateByte a k = (a[k / 8]'(by omega)).extractLsb' (8 * (k % 8)) 8 := by
  have hlane : k / 8 < 25 := by omega
  simp [stateByte, Vector.getD, hlane]

/-- Byte k of the state view is StateByte(k) (R41). -/
theorem stateBytes_getElem? (a : Lanes) (k : Nat) (hk : k < 200) : (stateBytes a)[k]? = some (stateByte a k) := by
  have hlane : k / 8 < a.toList.length := by rw [Vector.length_toList]; omega
  rw [stateBytes, flatMap_laneToBytes_getElem? _ _ (by simpa using hk), List.getD_eq_getElem _ _ hlane,
    Vector.getElem_toList, stateByte_eq a k hk]

/-- Settles O11: the last clause is the view's definition (R41). -/
theorem stateViewBytes : Obligations.StateViewBytes := fun a =>
  ⟨stateBytes_length a, stateBytes_getElem? a, stateByte_eq a, rfl⟩

end Sys2Proof.Machine
end

section
/-! PROOFS. The faults of the encoding: words that are no instruction, and DATA of a wrong length (R66, R67, R69). -/

namespace Sys2Proof

/-! ## Which words the decoder refuses -/

/-- R66: an opcode of no instruction is refused, whatever the other fields hold. -/
theorem decode_of_illegalOpcode {w : CommandWord} (h : opField w = 0x0 ∨ 0xC ≤ opField w) :
    decode w = .illegal .illegalOpcode := if_pos h

/-- R67: in the row of an opcode with no lane count, N must be 0. -/
theorem decodeOp_of_reservedLaneCount {op n : Nat} (hn : n ≠ 0) (hop : op = 1 ∨ op = 2 ∨ 6 ≤ op ∧ op ≤ 0xB) :
    decodeOp op n = .illegal .reservedNonzero := by
  have hbare (i : Instr) : decodeBare n i = .illegal .reservedNonzero := if_neg hn
  rcases hop with rfl | rfl | ⟨hlow, hhigh⟩
  · exact hbare .init
  · exact hbare .permute
  · interval_cases op <;> exact hbare _

/-- R67: a legal opcode with a reserved bit set, above N or in the N of an opcode that takes none. -/
theorem decode_of_reservedNonzero {w : CommandWord} (hop : ¬ (opField w = 0x0 ∨ 0xC ≤ opField w))
    (h : reservedField w ≠ 0 ∨
      (laneCountField w ≠ 0 ∧ (opField w = 1 ∨ opField w = 2 ∨ 6 ≤ opField w ∧ opField w ≤ 0xB))) :
    decode w = .illegal .reservedNonzero := by
  refine (if_neg hop).trans ?_
  by_cases hr : reservedField w = 0
  · obtain ⟨hn, hbare⟩ := h.resolve_left (absurd hr)
    exact (if_neg (not_not_intro hr)).trans (decodeOp_of_reservedLaneCount hn hbare)
  · exact if_pos hr

end Sys2Proof

namespace Sys2Proof.Machine

/-- R181: on an engine that is not faulted, a word that is no instruction takes the decoder's fault. -/
theorem step_of_illegal_of_not_fault {s : State} {c : Command} {rest : List HostEvent} {e : DecodeError}
    (hq : s.input = .command c :: rest) (hf : s.fault = false) (hd : decode c.word = .illegal e) :
    step s = .next (respond [] (s.recordFault (decodeCause e))) := by
  rcases takeFault_cases (decodeCause e) s with ⟨hfaulted, -⟩ | ⟨-, htaken⟩
  · simp [hf] at hfaulted
  · rw [step_of_illegal hq hd, htaken]

/-- Settles O34: the decoder's two refusals, each taken as its fault. -/
theorem illegalWordsFault : Obligations.IllegalWordsFault := by
  intro s c rest hq hf op illegal reserved
  refine ⟨fun hop => ?_, fun hop hres => ?_⟩
  · have hd : decode c.word = .illegal .illegalOpcode := decode_of_illegalOpcode hop
    exact ⟨_, step_of_illegal_of_not_fault hq hf hd, rfl, rfl, rfl, rfl, rfl, rfl, rfl⟩
  · have hfields : reservedField c.word ≠ 0 ∨
        (laneCountField c.word ≠ 0 ∧ (op = 1 ∨ op = 2 ∨ 6 ≤ op ∧ op ≤ 0xB)) := by
      simpa [reserved, reservedField, laneCountField, BitVec.toNat_eq] using hres
    have hd : decode c.word = .illegal .reservedNonzero := decode_of_reservedNonzero hop hfields
    exact ⟨_, step_of_illegal_of_not_fault hq hf hd, rfl, rfl, rfl, rfl, rfl, rfl, rfl⟩

/-! ## DATA of a wrong length -/

/-- Settles O36: the length written out is `dataLength`, and its check is the first of those that fail. -/
theorem wrongDataLengthFaults : Obligations.WrongDataLengthFaults := by
  intro s i hl hf hd
  have hlen : (dataOperand s).length ≠ dataLength i := by cases i <;> exact hd
  exact ⟨_, exec_of_failed hf (firstCause_of_wrongLength hl hlen), rfl, rfl, rfl, rfl, rfl, rfl, rfl⟩

end Sys2Proof.Machine
end

section
/-! PROOFS. The assembler's pseudo-instructions (R73). -/

namespace Sys2Proof.Machine

/-! ## One command -/

/-- R72: with a legal lane count and R69's DATA length the command is emitted. -/
theorem assembleCommand_of_legal {i : Instr} {d : List Byte} (hl : i.laneCountLegal = true)
    (hd : d.length = dataLength i) : assembleCommand i d = some ⟨encode i, d⟩ := if_pos ⟨hl, hd⟩

/-- R72: a lane count outside [1,25] is rejected, whatever DATA is. -/
theorem assembleCommand_of_illegalLaneCount {i : Instr} (d : List Byte) (hl : i.laneCountLegal = false) :
    assembleCommand i d = none := if_neg (by simp [hl])

/-- R64: EXTRACT's lane counts that may execute. -/
theorem laneCountLegal_extract (n : Nat) : (Instr.extract n).laneCountLegal = true ↔ 1 ≤ n ∧ n ≤ 25 := by
  simp [Instr.laneCountLegal]

/-! ## The three pseudo-instructions -/

/-- R73: the instruction ABSORB_BITS r stands for is assembled as the line of its fixed-width absorb is, or that of
ABSORB r/64. -/
theorem assembleOne_absorbBitsInstr (r : Nat) (d : List Byte) :
    assembleOne (absorbBitsInstr r) d =
      if r = 576 then assemble (.absorb576 d) else if r = 832 then assemble (.absorb832 d)
      else if r = 1024 then assemble (.absorb1024 d) else if r = 1088 then assemble (.absorb1088 d)
      else if r = 1152 then assemble (.absorb1152 d) else if r = 1344 then assemble (.absorb1344 d)
      else assemble (.absorb (r / 64) d) := by
  simp only [absorbBitsInstr, apply_ite (fun i => assembleOne i d)]
  rfl

/-- R73: SQUEEZE n is PERMUTE, which is always accepted, and then what EXTRACT n is. -/
theorem assemble_squeeze (n : Nat) :
    assemble (.squeeze n) = (assembleCommand (.extract n) []).map fun e => [⟨encode .permute, []⟩, e] := by
  have hp : assembleCommand .permute [] = some ⟨encode .permute, []⟩ := assembleCommand_of_legal rfl rfl
  change (match assembleCommand .permute [], assembleCommand (.extract n) [] with
    | some p, some e => some [p, e]
    | _, _ => none) = _
  rw [hp]
  cases assembleCommand (.extract n) [] <;> rfl

theorem assemble_squeeze_of_legal {n : Nat} (h : 1 ≤ n ∧ n ≤ 25) :
    assemble (.squeeze n) = some [⟨encode .permute, []⟩, ⟨encode (.extract n), []⟩] := by
  rw [assemble_squeeze, assembleCommand_of_legal ((laneCountLegal_extract n).2 h) rfl]
  rfl

theorem assemble_squeeze_of_illegal {n : Nat} (h : ¬ (1 ≤ n ∧ n ≤ 25)) : assemble (.squeeze n) = none := by
  have hl : (Instr.extract n).laneCountLegal = false := Bool.eq_false_iff.2 (mt (laneCountLegal_extract n).1 h)
  rw [assemble_squeeze, assembleCommand_of_illegalLaneCount [] hl]
  rfl

/-- Settles O6: EXTRACT_BYTES is its own definition; the other two are the lemmas above. -/
theorem pseudoInstructionsExpand : Obligations.PseudoInstructionsExpand := by
  refine ⟨fun r d => ?_, fun k => rfl, fun n h1 h25 => assemble_squeeze_of_legal ⟨h1, h25⟩,
    fun n h => assemble_squeeze_of_illegal (by omega)⟩
  rw [← assembleOne_absorbBitsInstr]
  rfl

end Sys2Proof.Machine
end

section
/-! PROOFS. The tables of rho and iota: their entries, and the walk and the register that give them (R104, R105, R111,
R112). -/

namespace Sys2Proof.Machine

/-- A sequence in which each value is f of the one before is the iteration of f from its start. -/
theorem eq_iterate_of_succ {α : Type} {f : α → α} {u : Nat → α} (h : ∀ t, u (t + 1) = f (u t)) (t : Nat) :
    u t = f^[t] (u 0) := by
  induction t with
  | zero => rfl
  | succ t ih => rw [h, ih, Function.iterate_succ_apply']

/-! ## The rotation offsets -/

/-- R104: every offset is in [0,63]. -/
theorem rotationTable_lt : ∀ i : Fin 25, rotationTable.get i < 64 := by decide

/-- R104: lane 0 alone is not rotated. -/
theorem rotationTable_eq_zero_iff : ∀ i : Fin 25, rotationTable.get i = 0 ↔ i = 0 := by decide

/-- One move of R105's walk over the grid. -/
def walkMove (p : Nat × Nat) : Nat × Nat := (p.2, (2 * p.1 + 3 * p.2) % 5)

/-- R105: the offset at each of the 24 positions the walk from (1, 0) visits. -/
theorem rotationTable_on_walk : ∀ t < 24,
    rotationTable.get (gridIndex (walkMove^[t] (1, 0)).1 (walkMove^[t] (1, 0)).2) = (t + 1) * (t + 2) / 2 % 64 := by
  decide

/-- Settles O15: a walk by R105's moves is the iteration of one move, and the table is evaluated along it. -/
theorem rotationTableFollowsItsWalk : Obligations.RotationTableFollowsItsWalk := by
  refine ⟨rfl, fun walk hstart hmove t ht => ?_⟩
  have hwalk : walk t = walkMove^[t] (1, 0) := hstart ▸ eq_iterate_of_succ hmove t
  rw [hwalk]
  exact rotationTable_on_walk t ht

/-! ## The round constants -/

/-- One step of R112's register: times x, reduced modulo x^8 + x^6 + x^5 + x^4 + 1. -/
def registerStep (v : Nat) : Nat := if 2 * v < 256 then 2 * v else (2 * v) ^^^ 0x171

/-- The lane whose bits 2^j - 1, for j of a list, are given, with every other bit 0: R112's layout of a constant. -/
def laneOfBits (js : List Nat) (b : Nat → Bool) : Lane :=
  js.foldr (fun j v => (if b j then BitVec.twoPow 64 (2 ^ j - 1) else 0) ||| v) 0

theorem laneOfBits_getLsbD (js : List Nat) (b : Nat → Bool) {z : Nat} (hz : z < 64) :
    (laneOfBits js b).getLsbD z = js.any fun j => z == 2 ^ j - 1 && b j := by
  induction js with
  | nil => exact BitVec.getLsbD_zero
  | cons j js ih =>
    have hcons : laneOfBits (j :: js) b = (if b j then BitVec.twoPow 64 (2 ^ j - 1) else 0) ||| laneOfBits js b := rfl
    rw [hcons, BitVec.getLsbD_or, ih, List.any_cons]
    cases b j <;> grind

/-- R112: each round constant is laid out from seven bits of the register started at 1. -/
theorem roundConstant_eq_laneOfBits : ∀ ir : Fin 24,
    roundConstant ir = laneOfBits (List.range 7) fun j => (registerStep^[j + 7 * ir.val] 1).testBit 0 := by
  decide

/-- Settles O21: a register by R112's steps is the iteration of one step, and the constants are its lanes. -/
theorem roundConstantsFollowTheirRegister : Obligations.RoundConstantsFollowTheirRegister := by
  intro x hstart hstep
  have hregister (t : Nat) : x t = registerStep^[t] 1 := hstart ▸ eq_iterate_of_succ hstep t
  refine ⟨fun ir z hz => ?_, rfl, rfl, rfl, rfl⟩
  simp only [hregister, roundConstant_eq_laneOfBits, laneOfBits_getLsbD _ _ hz]

end Sys2Proof.Machine
end

section
/-! PROOFS. The five sub-steps of a round at a grid position, and the 24 rounds of the permutation (R100 to R113). -/

namespace Sys2Proof.Machine

/-! ## theta -/

/-- Settles O12: theta's lane, effect and parity by the laws of Keccak, and D bit by bit by the rotation's. -/
theorem thetaFormula : Obligations.ThetaFormula := by
  intro a x hx y hy c d
  have hparity (i : Nat) : (columnParity a).get (Fin.ofNat 5 i) = c (i % 5) := columnParity_get a _
  refine ⟨?_, fun z hz => ?_⟩
  · rw [lane_theta a x y hx hy, thetaEffect_get, hparity, hparity]
  · rw [BitVec.getLsbD_xor, rol64_getLsbD _ _ _ hz]
    rfl

/-! ## rho -/

/-- R104: the offset by row and column is the offset by lane index. -/
theorem rotationTable_row : ∀ x < 5, ∀ y < 5,
    ([[0, 1, 62, 28, 27], [36, 44, 6, 55, 20], [3, 10, 43, 25, 39], [41, 45, 15, 21, 8], [18, 2, 61, 56, 14]][y]!)[x]! =
      rotationTable.get (gridIndex x y) := by
  decide

/-- Settles O14: rho's lane is a rotation, read bit by bit, by an offset of the table. -/
theorem rhoMovesBits : Obligations.RhoMovesBits := by
  refine ⟨fun a x hx y hy z hz => ?_, rfl, fun i => ⟨rotationTable_lt i, rotationTable_eq_zero_iff i⟩⟩
  rw [rotationTable_row x hx y hy, lane_rho a x y hx hy, rol64_getLsbD _ _ _ hz, Nat.mod_eq_of_lt (rotationTable_lt _)]

/-! ## pi -/

/-- The first coordinate counts mod 5 alone. -/
theorem lane_congr_left (a : Lanes) {x x' : Nat} (y : Nat) (h : x % 5 = x' % 5) : lane a x y = lane a x' y := by
  rw [← lane_mod_left, h, lane_mod_left]

theorem lane_pi (a : Lanes) (x y : Nat) : lane (pi a) x y = lane a (x + 3 * y) x := by
  rw [pi, lane_buildLanes, lane_mod_right]
  exact lane_congr_left a x (by omega)

/-- R106: pi moves the lane at (x, y) to (y, (2x + 3y) mod 5). -/
theorem lane_pi_target (a : Lanes) (x y : Nat) : lane (pi a) y ((2 * x + 3 * y) % 5) = lane a x y := by
  rw [lane_mod_right, lane_pi]
  exact lane_congr_left a y (by omega)

/-- Settles O16: the source is pi's definition, the target the same read at the new position. -/
theorem piMovesLanes : Obligations.PiMovesLanes := by
  intro a x _ y _
  exact ⟨by rw [lane_pi, lane_mod_left], lane_pi_target a x y⟩

/-! ## chi -/

theorem lane_chi (a : Lanes) (x y : Nat) :
    lane (chi a) x y = lane a x y ^^^ (~~~ lane a (x + 1) y &&& lane a (x + 2) y) := by
  have hnext (k : Nat) : lane a (x % 5 + k) y = lane a (x + k) y := lane_congr_left a y (by omega)
  simp only [chi, lane_buildLanes, lane_mod_left, lane_mod_right, hnext]

/-- Settles O18: the neighbours' coordinates are taken mod 5 already. -/
theorem chiFormula : Obligations.ChiFormula := by
  intro a x _ y _
  rw [lane_chi, lane_mod_left, lane_mod_left]

/-! ## iota -/

theorem iota_getElem_zero (a : Lanes) (ir : Fin 24) : (iota a ir)[0] = a[0] ^^^ roundConstant ir :=
  Vector.getElem_set_self _

theorem iota_getElem_of_ne_zero (a : Lanes) (ir : Fin 24) {i : Nat} (h : i < 25) (h0 : i ≠ 0) : (iota a ir)[i] = a[i] :=
  Vector.getElem_set_ne _ _ h0.symm

/-- R111: the table's rows hold RC[k], RC[k + 8] and RC[k + 16], here read as lists. -/
theorem roundConstant_eq_row : ∀ ir : Fin 24,
    roundConstant ir = ((roundConstantRows.toList.map Vector.toList)[ir.val % 8]!)[ir.val / 8]! := by
  decide

/-- Settles O20: iota writes lane 0 alone, and the rule's rows are those of the model. -/
theorem iotaChangesLaneZeroOnly : Obligations.IotaChangesLaneZeroOnly := by
  intro a ir
  refine ⟨?_, fun i h h0 => iota_getElem_of_ne_zero a ir h h0⟩
  rw [iota_getElem_zero, roundConstant_eq_row]
  rfl

/-! ## The 24 rounds -/

/-- The state after the first n rounds. -/
def roundStates (a : Lanes) (n : Nat) : Lanes := ((List.finRange 24).take n).foldl keccakRound a

theorem roundStates_succ (a : Lanes) (ir : Fin 24) :
    roundStates a (ir.val + 1) = keccakRound (roundStates a ir.val) ir := by
  have htake : (List.finRange 24).take (ir.val + 1) = (List.finRange 24).take ir.val ++ [ir] := by
    rw [List.take_succ_eq_append_getElem (by simp)]
    simp
  rw [roundStates, htake, List.foldl_append]
  rfl

theorem roundStates_all (a : Lanes) : roundStates a 24 = keccakF1600 a := by
  rw [roundStates, List.take_of_length_le (by simp), keccakF1600]

/-- Settles O22: the states after the first n rounds. -/
theorem permutationIsTwentyFourRounds : Obligations.PermutationIsTwentyFourRounds := fun a =>
  ⟨roundStates a, rfl, roundStates_succ a, (roundStates_all a).symm⟩

end Sys2Proof.Machine
end

section
/-! PROOFS. Decoding an encoded instruction, and the step at a command the host has encoded (R60, R63 to R65). -/

namespace Sys2Proof

/-- R65: the opcode of an instruction is none of R66's. -/
theorem opcode_not_illegal (i : Instr) : ¬ (i.opcode = 0x0 ∨ 0xC ≤ i.opcode) := by cases i <;> simp [Instr.opcode]

theorem decode_encode {i : Instr} (h : i.WellFormed) : decode (encode i) = .instr i := by
  obtain ⟨hop, hlane, hreserved⟩ := Laws.EncodedFields.of_number i h
  rw [decode, hop, hlane, if_neg (opcode_not_illegal i), if_neg (not_not_intro hreserved), decodeOp_opcode]

end Sys2Proof

namespace Sys2Proof.Machine

/-- A step at an instruction's own command runs it. -/
theorem step_of_commandOf {s : State} {i : Instr} {data : List Byte} {rest : List HostEvent}
    (hq : s.input = commandOf i data :: rest) (hi : i.WellFormed) : step s = exec i s :=
  step_of_command hq (decode_encode hi)

/-- A command that writes S alone, none of whose checks fails, does so and gives an empty OUT. -/
theorem exec_updateLanes_of_passed {s : State} {i : Instr} {g : Lanes → List Byte → Lanes} {data : List Byte}
    (heffect : instrEffect i = updateLanes g) (hout : instrOut i = noOutput) (hdata : dataOperand s = data)
    (hf : s.fault = false) (hinit : s.initDone = true) (hl : i.laneCountLegal = true)
    (hd : data.length = dataLength i) : exec i s = .next (respond [] (s.withLanes (g s.lanes data))) := by
  rw [exec_of_passed hf hl (hdata ▸ hd) fun _ => hinit, heffect, hout, updateLanes, hdata]
  rfl

end Sys2Proof.Machine
end

section
/-! PROOFS. The data XOR, the absorbs that share it, and the absorb as XOR_LANES and PERMUTE (R141, R148, R151). -/

namespace Sys2Proof.Machine

/-! ## The data XOR -/

theorem xorDataLanes_getElem (a : Lanes) (data : List Byte) (n : Nat) {i : Nat} (h : i < 25) :
    (xorDataLanes a data n)[i] = if i < n then a[i] ^^^ dataLane data i else a[i] := Vector.getElem_ofFn h

/-- Settles O24: the two branches of the XOR at a lane, the data lane read as its eight bytes. -/
theorem xorLanesChangesLeadingLanesOnly : Obligations.XorLanesChangesLeadingLanesOnly := by
  intro a data n _ _ _ i h
  rw [xorDataLanes_getElem a data n h, ← dataLane_eq]
  exact ⟨fun hlow => if_pos hlow, fun hhigh => if_neg hhigh.not_gt⟩

/-! ## The fixed-width absorbs -/

/-- A lane count that may execute passes its check: what is left are the checks of a command without one. -/
theorem firstCause_laneCommandChecks {n : Nat} (h1 : 1 ≤ n) (h25 : n ≤ 25) (len : Nat) (s : State) :
    firstCause (laneCommandChecks n len s) = firstCause (plainCommandChecks len s) := by
  have hpass : (laneCountCheck n).failed = false := by
    simp [laneCountCheck, Nat.ne_of_gt h1, h25]
  rw [laneCommandChecks, firstCause_cons, hpass]
  rfl

/-- The causes a command without a lane count can report. -/
theorem firstCause_plainCommandChecks {len : Nat} {s : State} {c : Cause}
    (h : firstCause (plainCommandChecks len s) = some c) : c = .dataLength ∨ c = .notInitialized := by
  rw [plainCommandChecks, firstCause_cons, firstCause_cons] at h
  split at h
  · exact .inl (Option.some.inj h).symm
  · split at h
    · exact .inr (Option.some.inj h).symm
    · cases h

/-- A command is decided by the first check that fails. -/
theorem runCommand_congr_checks {ks ks' : List Check} (h : firstCause ks = firstCause ks') (effect : State → State)
    (out : State → List Byte) (s : State) : runCommand ks effect out s = runCommand ks' effect out s := by
  rw [runCommand, runCommand, h]

/-- R142 to R147: each pair of the table is an instruction and its lane count, which is in [1,25]; the instruction is the
fixed absorb of that many lanes and consumes their bytes. -/
theorem exec_of_mem_fixedAbsorbs {i : Instr} {k : Nat} (h : (i, k) ∈ fixedAbsorbs) :
    (∀ s, exec i s = .next (fixedAbsorb i k s)) ∧ dataLength i = 8 * k ∧ (1 ≤ k ∧ k ≤ 25) ∧ i.WellFormed := by
  simp only [fixedAbsorbs, List.mem_cons, Prod.mk.injEq, List.not_mem_nil, or_false] at h
  rcases h with ⟨rfl, rfl⟩ | ⟨rfl, rfl⟩ | ⟨rfl, rfl⟩ | ⟨rfl, rfl⟩ | ⟨rfl, rfl⟩ | ⟨rfl, rfl⟩ <;>
    exact ⟨fun _ => rfl, rfl, by decide, by decide⟩

/-- R148: a fixed-width absorb is the general absorb at its lane count. -/
theorem exec_fixedAbsorb_eq_absorb {i : Instr} {k : Nat} (h : (i, k) ∈ fixedAbsorbs) (s : State) :
    exec i s = exec (.absorb k) s := by
  obtain ⟨hexec, hlen, ⟨h1, h25⟩, -⟩ := exec_of_mem_fixedAbsorbs h
  have hchecks : firstCause (plainCommandChecks (dataLength i) s) = firstCause (instrChecks (.absorb k) s) := by
    rw [hlen]
    exact (firstCause_laneCommandChecks h1 h25 _ s).symm
  rw [hexec, exec_eq_runCommand, fixedAbsorb, runCommand_congr_checks hchecks]
  rfl

/-- A fixed absorb reports LANE_COUNT_RANGE only where an earlier command has left it. -/
theorem fixedAbsorb_cause {i : Instr} {k : Nat} {s : State} (h : (fixedAbsorb i k s).cause = .laneCountRange) :
    s.cause = .laneCountRange := by
  rw [fixedAbsorb] at h
  rcases runCommand_cases (plainCommandChecks (dataLength i) s) (updateLanes (absorbLanes k)) noOutput s with
    ⟨-, e⟩ | ⟨-, c, hc, e⟩ | ⟨-, -, e⟩ <;> rw [e] at h
  · exact h
  · rcases firstCause_plainCommandChecks hc with rfl | rfl <;> cases h
  · exact h

/-- Settles O50: the lane-count check of ABSORB passes at each table entry, and a fixed absorb has none. -/
theorem fixedAbsorbEqualsGeneralAbsorb : Obligations.FixedAbsorbEqualsGeneralAbsorb := by
  intro p hp s
  refine ⟨exec_fixedAbsorb_eq_absorb hp s, fun t ht hcause => ?_⟩
  obtain ⟨hexec, -⟩ := exec_of_mem_fixedAbsorbs hp
  cases (hexec s).symm.trans ht
  exact fixedAbsorb_cause hcause

/-! ## The absorb in two commands -/

/-- Running the command of ABSORB n, or of the fixed absorb of n lanes, is running ABSORB n. -/
theorem step_of_absorb {s : State} {i : Instr} {n : Nat} {data : List Byte} {rest : List HostEvent}
    (hq : s.input = commandOf i data :: rest) (hn : n ≤ 25) (hi : i = .absorb n ∨ (i, n) ∈ fixedAbsorbs) :
    step s = exec (.absorb n) s := by
  rcases hi with rfl | hfixed
  · exact step_of_commandOf hq (Nat.lt_of_le_of_lt hn (by decide))
  · obtain ⟨-, -, -, hwf⟩ := exec_of_mem_fixedAbsorbs hfixed
    rw [step_of_commandOf hq hwf, exec_fixedAbsorb_eq_absorb hfixed]

section
variable {s : State} {n : Nat} {data : List Byte} {rest : List HostEvent}
  (hf : s.fault = false) (hinit : s.initDone = true) (h1 : 1 ≤ n) (h25 : n ≤ 25) (hd : data.length = 8 * n)
include hf hinit h1 h25 hd

/-- R140, R142 to R147: an absorb that no check stops. -/
theorem step_absorb_of_passed {i : Instr} (hi : i = .absorb n ∨ (i, n) ∈ fixedAbsorbs)
    (hq : s.input = commandOf i data :: rest) :
    step s = .next (respond [] (s.withLanes (keccakF1600 (xorDataLanes s.lanes data n)))) := by
  rw [step_of_absorb hq h25 hi]
  exact exec_updateLanes_of_passed (g := absorbLanes n) rfl rfl (dataOperand_of_input s hq) hf hinit
    (by simp [Instr.laneCountLegal, h1, h25]) hd

/-- R150: an XOR_LANES that no check stops. -/
theorem step_xorLanes_of_passed (hq : s.input = commandOf (.xorLanes n) data :: rest) :
    step s = .next (respond [] (s.withLanes (xorDataLanes s.lanes data n))) := by
  rw [step_of_commandOf hq (Nat.lt_of_le_of_lt h25 (by decide))]
  exact exec_updateLanes_of_passed (g := fun a data => xorDataLanes a data n) rfl rfl (dataOperand_of_input s hq) hf hinit
    (by simp [Instr.laneCountLegal, h1, h25]) hd

end

/-- R120: a PERMUTE that no check stops. -/
theorem step_permute_of_passed {s : State} {rest : List HostEvent} (hf : s.fault = false) (hinit : s.initDone = true)
    (hq : s.input = commandOf .permute [] :: rest) :
    step s = .next (respond [] (s.withLanes (keccakF1600 s.lanes))) := by
  rw [step_of_commandOf hq (by decide)]
  exact exec_updateLanes_of_passed (g := fun a _ => keccakF1600 a) rfl rfl (dataOperand_of_input s hq) hf hinit rfl rfl

/-- R150, R120: the run of the two commands. XOR_LANES leaves FAULT and INIT_DONE, so no check stops PERMUTE either. -/
theorem runSteps_xorLanes_permute {s : State} {n : Nat} {data : List Byte} (hf : s.fault = false)
    (hinit : s.initDone = true) (h1 : 1 ≤ n) (h25 : n ≤ 25) (hd : data.length = 8 * n)
    (hq : s.input = [commandOf (.xorLanes n) data, commandOf .permute []]) :
    runSteps 2 s = .next (respond [] ((respond [] (s.withLanes (xorDataLanes s.lanes data n))).withLanes
      (keccakF1600 (xorDataLanes s.lanes data n)))) := by
  have hxor := step_xorLanes_of_passed hf hinit h1 h25 hd hq
  have hpermute := step_permute_of_passed (s := respond [] (s.withLanes (xorDataLanes s.lanes data n))) (rest := [])
    (by simp [hf]) (by simp [hinit]) (by simp [hq, commandOf])
  rw [runSteps_succ 1 hxor, runSteps_succ 0 hpermute, runSteps_zero, respond_lanes, State.withLanes_lanes]

/-- Settles O51: no check stops any of the commands, and both runs end with the permutation of the XORed lanes. -/
theorem absorbIsXorThenPermute : Obligations.AbsorbIsXorThenPermute := by
  intro s n data i h1 h25 hd hf hinit hi
  refine ⟨_, _, runSteps_succ 0 (step_absorb_of_passed hf hinit h1 h25 hd hi rfl),
    runSteps_xorLanes_permute hf hinit h1 h25 hd rfl, ?_, ?_, ?_⟩
  · simp [archTuple]
  · simp [hf]
  · simp [statusWord]
end Sys2Proof.Machine
end

section
/-! PROOFS. EXTRACT on a ready engine, and the state view as its OUT at 25 lanes (R160, R161). -/

namespace Sys2Proof.Machine

/-- R61: responding, with S and STATUS as they are, is an answer. -/
theorem respond_answered (s : State) (out : List Byte) : Answered s (respond out s) out := ⟨rfl, rfl, rfl⟩

/-- R160: an EXTRACT that no check stops responds with the leading lanes' bytes and writes nothing. -/
theorem exec_extract_of_ready {s : State} {n : Nat} (h1 : 1 ≤ n) (h25 : n ≤ 25) (h : Ready s 0) :
    exec (.extract n) s = .next (respond (leadingBytes s.lanes n) s) := by
  obtain ⟨hf, hinit, hd⟩ := h
  exact exec_of_passed hf ((laneCountLegal_extract n).2 ⟨h1, h25⟩) hd fun _ => hinit

/-- R161: the bytes of all 25 lanes are the state view. -/
theorem leadingBytes_all (a : Lanes) : leadingBytes a 25 = stateBytes a := by
  rw [leadingBytes, List.take_of_length_le (by simp), stateBytes]

/-- Settles O31: EXTRACT 25 responds with the state view, whose length and bytes are R41's. -/
theorem fullExtractIsTheStateView : Obligations.FullExtractIsTheStateView := by
  intro s h
  have hexec : exec (.extract 25) s = .next (respond (stateBytes s.lanes) s) := by
    rw [exec_extract_of_ready (by decide) (by decide) h, leadingBytes_all]
  exact ⟨_, _, hexec, respond_answered s _, stateBytes_length s.lanes, stateBytes_getElem? s.lanes⟩

end Sys2Proof.Machine
end

section
/-! PROOFS. Every command against the fault table, and the fault that only a reset clears (R180 to R183). -/

namespace Sys2Proof

/-! ## What a word decodes to -/

/-- OP is of no instruction (R66). -/
abbrev OpIllegal (w : CommandWord) : Prop := opField w = 0 ∨ 12 ≤ opField w

/-- OP is of an instruction that takes a lane count (R65). -/
abbrev OpCounted (op : Nat) : Prop := op = 3 ∨ op = 4 ∨ op = 5

/-- A reserved bit is set, above N or in the N of an opcode that takes none (R67). -/
abbrev ReservedSet (w : CommandWord) : Prop := reservedField w ≠ 0 ∨ (¬ OpCounted (opField w) ∧ laneCountField w ≠ 0)

/-- R65: a legal opcode, with N = 0 where it takes no lane count, selects the instruction whose opcode and N they are. -/
theorem decodeOp_of_legal {op n : Nat} (hlow : 1 ≤ op) (hhigh : op ≤ 11) (hn : OpCounted op ∨ n = 0) :
    ∃ i, decodeOp op n = .instr i ∧ op = i.opcode ∧ n = i.laneField := by
  rcases hn with (rfl | rfl | rfl) | rfl
  · exact ⟨.absorb n, rfl, rfl, rfl⟩
  · exact ⟨.xorLanes n, rfl, rfl, rfl⟩
  · exact ⟨.extract n, rfl, rfl, rfl⟩
  · interval_cases op <;> exact ⟨_, rfl, rfl, rfl⟩

/-- Everything the decoder can answer: the two refusals, in R182's order, or the instruction whose fields the word
carries (R65 to R67). -/
theorem decode_cases (w : CommandWord) :
    (OpIllegal w ∧ decode w = .illegal .illegalOpcode) ∨
    (¬ OpIllegal w ∧ ReservedSet w ∧ decode w = .illegal .reservedNonzero) ∨
    (∃ i, decode w = .instr i ∧ opField w = i.opcode ∧ laneCountField w = i.laneField ∧ reservedField w = 0) := by
  by_cases hop : OpIllegal w
  · exact .inl ⟨hop, decode_of_illegalOpcode hop⟩
  · by_cases hres : ReservedSet w
    · exact .inr (.inl ⟨hop, hres, decode_of_reservedNonzero hop (by omega)⟩)
    · have hr : reservedField w = 0 := by omega
      obtain ⟨i, hi, ho, hn⟩ : ∃ i, decodeOp (opField w) (laneCountField w) = .instr i ∧ opField w = i.opcode ∧
          laneCountField w = i.laneField := decodeOp_of_legal (by omega) (by omega) (by omega)
      exact .inr (.inr ⟨i, by rw [decode, if_neg hop, if_neg (not_not_intro hr), hi], ho, hn, hr⟩)

/-! ## Opcode and N against the instruction -/

/-- R65: an instruction without a lane count has 0 in the N field. -/
theorem opCounted_or_laneField_eq_zero (i : Instr) : OpCounted i.opcode ∨ i.laneField = 0 := by
  cases i <;> simp [OpCounted, Instr.opcode, Instr.laneField]

theorem opcode_eq_one_iff (i : Instr) : i.opcode = 1 ↔ i = .init := by cases i <;> simp [Instr.opcode]

/-- R64: the lane counts that may not execute. -/
theorem laneCountLegal_eq_false_iff (i : Instr) :
    i.laneCountLegal = false ↔ OpCounted i.opcode ∧ (i.laneField = 0 ∨ 25 < i.laneField) := by
  cases i <;> simp [Instr.laneCountLegal, Instr.opcode, Instr.laneField] <;> omega

end Sys2Proof

namespace Sys2Proof.Machine

/-- R65, R69: the bytes an instruction consumes, read off its own opcode and N. -/
theorem consumedBytes_opcode (i : Instr) : consumedBytes i.opcode i.laneField = dataLength i := by cases i <;> rfl

/-! ## The reference cause of a word -/

/-- The reference in terms of the word's fields. -/
theorem referenceCause_eq (w : CommandWord) (len : Nat) (initDone : Bool) :
    referenceCause w len initDone =
      if OpIllegal w then .illegalOpcode
      else if ReservedSet w then .reservedNonzero
      else if OpCounted (opField w) ∧ (laneCountField w = 0 ∨ 25 < laneCountField w) then .laneCountRange
      else if len ≠ consumedBytes (opField w) (laneCountField w) then .dataLength
      else if opField w ≠ 1 ∧ initDone = false then .notInitialized
      else .none := by
  simp only [OpIllegal, ReservedSet, OpCounted, opField_eq, laneCountField_eq, reservedField_eq]
  rfl

/-- R66, R67: the cause of a word that does not decode is the decoder's. -/
theorem referenceCause_of_illegal {w : CommandWord} {e : DecodeError} (h : decode w = .illegal e) (len : Nat)
    (initDone : Bool) : referenceCause w len initDone = decodeCause e := by
  rw [referenceCause_eq]
  rcases decode_cases w with ⟨hop, hd⟩ | ⟨hop, hres, hd⟩ | ⟨i, hd, -⟩ <;> cases hd.symm.trans h
  · exact if_pos hop
  · exact (if_neg hop).trans (if_pos hres)

/-- A word that decodes leaves the last three conditions of R180, on its instruction's operands. -/
theorem referenceCause_of_instr {w : CommandWord} {i : Instr} (h : decode w = .instr i) (len : Nat) (initDone : Bool) :
    referenceCause w len initDone =
      if i.laneCountLegal = false then .laneCountRange
      else if len ≠ dataLength i then .dataLength
      else if i ≠ .init ∧ initDone = false then .notInitialized
      else .none := by
  rcases decode_cases w with ⟨-, hd⟩ | ⟨-, -, hd⟩ | ⟨j, hd, hop, hn, hr⟩ <;> cases hd.symm.trans h
  have hlegal : ¬ OpIllegal w := by rw [OpIllegal, hop]; exact opcode_not_illegal i
  have hclear : ¬ ReservedSet w := by
    have := opCounted_or_laneField_eq_zero i
    rw [ReservedSet, hop, hn]
    tauto
  rw [referenceCause_eq, if_neg hlegal, if_neg hclear, hop, hn, consumedBytes_opcode]
  simp only [laneCountLegal_eq_false_iff, ne_eq, opcode_eq_one_iff]

/-- R64: an illegal lane count is the first failure, whatever DATA and INIT_DONE are. -/
theorem firstCause_of_illegalLaneCount {i : Instr} (s : State) (hl : i.laneCountLegal = false) :
    firstCause (instrChecks i s) = some .laneCountRange := by
  have lanes {n : Nat} (h : (1 ≤ n && n ≤ 25) = false) (len : Nat) :
      firstCause (laneCommandChecks n len s) = some .laneCountRange := by
    have h' : n = 0 ∨ 25 < n := by simp at h; omega
    simp [laneCommandChecks, laneCountCheck, h']
  cases i with
  | absorb n => exact lanes hl _
  | xorLanes n => exact lanes hl _
  | extract n => exact lanes hl _
  | _ => cases hl

/-- The checks of a decoded instruction report the reference cause of its word. -/
theorem firstCause_instrChecks_getD {w : CommandWord} {i : Instr} (h : decode w = .instr i) (s : State) :
    (firstCause (instrChecks i s)).getD .none = referenceCause w (dataOperand s).length s.initDone := by
  rw [referenceCause_of_instr h]
  split_ifs with hl hd hinit
  · rw [firstCause_of_illegalLaneCount s hl]; rfl
  · rw [firstCause_of_wrongLength (by simpa using hl) hd]; rfl
  · rw [firstCause_of_uninitialised hinit.1 (by simpa using hl) hinit.2 (by simpa using hd)]; rfl
  · rw [(firstCause_instrChecks_eq_none i s).2 ⟨by simpa using hl, by simpa using hd, by simpa using hinit⟩]; rfl

/-! ## One step against the reference -/

section
variable {s : State} {c : Command} {rest : List HostEvent} (hq : s.input = .command c :: rest)
include hq

/-- R181: a faulted engine rejects every command. -/
theorem step_of_fault (hf : s.fault = true) : step s = .next (rejectCommand s) := by
  cases hd : decode c.word with
  | instr i => rw [step_of_command hq hd, exec_eq_runCommand, runCommand_of_fault hf]
  | illegal e => rw [step_of_illegal hq hd, takeFault, if_pos hf]

/-- R182: with a condition of the fault table holding, the command takes the first one's fault. -/
theorem step_of_referenceCause_ne_none (hf : s.fault = false)
    (h : referenceCause c.word c.data.length s.initDone ≠ .none) :
    step s = .next (respond [] (s.recordFault (referenceCause c.word c.data.length s.initDone))) := by
  cases hd : decode c.word with
  | instr i =>
    have hcause := firstCause_instrChecks_getD hd s
    rw [dataOperand_of_input s hq] at hcause
    cases hk : firstCause (instrChecks i s) with
    | some k => rw [step_of_command hq hd, exec_of_failed hf hk, ← hcause, hk, Option.getD_some]
    | none => rw [← hcause, hk] at h; exact absurd rfl h
  | illegal e => rw [step_of_illegal_of_not_fault hq hf hd, referenceCause_of_illegal hd]

/-- With no condition of the fault table holding, the word decodes and its instruction has its effect. -/
theorem step_of_referenceCause_eq_none (hf : s.fault = false)
    (h : referenceCause c.word c.data.length s.initDone = .none) :
    ∃ i, decode c.word = .instr i ∧ step s = exec i s ∧ exec i s = .next (respond (instrOut i s) (instrEffect i s)) := by
  cases hd : decode c.word with
  | instr i =>
    have hcause := firstCause_instrChecks_getD hd s
    rw [dataOperand_of_input s hq, h] at hcause
    refine ⟨i, rfl, step_of_command hq hd, ?_⟩
    cases hk : firstCause (instrChecks i s) with
    | some k => rw [hk] at hcause; exact absurd hcause (firstCause_ne_none (instrChecks_cause_ne_none i s) hk)
    | none => rw [exec_eq_runCommand, runCommand_of_passed hf hk]
  | illegal e => rw [referenceCause_of_illegal hd] at h; cases e <;> cases h

end

/-! ## Every command against the table -/

/-- R27: STATUS[7:4] holds the cause's code. -/
theorem statusWord_cause (s : State) : (statusWord s).extractLsb' 4 4 = s.cause.code := by
  unfold statusWord
  generalize s.initDone = b, s.fault = f
  cases s.cause <;> revert b f <;> decide

/-- R180: the codes as numbers. -/
theorem statusWord_cause_toNat (s : State) : ((statusWord s).extractLsb' 4 4).toNat =
    match s.cause with
    | .none => 0 | .illegalOpcode => 1 | .reservedNonzero => 2
    | .laneCountRange => 3 | .dataLength => 4 | .notInitialized => 5 := by
  rw [statusWord_cause]
  cases s.cause <;> rfl

/-- Settles O33: what the step does, by FAULT and whether the reference reports a cause. -/
theorem commandFaultsAsTheTableSays : Obligations.CommandFaultsAsTheTableSays := by
  intro s c rest hq hcause expected
  cases hf : s.fault with
  | true =>
    exact ⟨_, step_of_fault hq hf, statusWord_cause_toNat _, fun _ => ⟨rfl, rfl, rfl, rfl⟩, nofun, nofun⟩
  | false =>
    by_cases hnone : expected = .none
    · obtain ⟨i, hd, hstep, hexec⟩ := step_of_referenceCause_eq_none hq hf hnone
      obtain ⟨hfault, hkeep, -⟩ := instrEffect_frame i s
      exact ⟨_, hstep.trans hexec, statusWord_cause_toNat _, nofun, fun _ hsome => absurd hnone hsome,
        fun _ _ => ⟨hfault.trans hf, hkeep.trans (hcause hf), i, hd, hexec⟩⟩
    · exact ⟨_, step_of_referenceCause_ne_none hq hf hnone, statusWord_cause_toNat _, nofun,
        fun _ _ => ⟨rfl, rfl, rfl, rfl⟩, fun _ h => absurd h hnone⟩

/-! ## A faulted engine -/

theorem step_of_idle {s : State} (hq : s.input = []) : step s = .next s := by simp [step, hq]

/-- R183: however many commands come, a faulted engine rejects each. -/
theorem runSteps_of_fault (k : Nat) {s : State} (hf : s.fault = true) (hcmd : ∀ e ∈ s.input, e.isCommand = true) :
    ∃ t, runSteps k s = .next t ∧ archTuple t = archTuple s ∧
      t.responses = List.replicate (min k s.input.length) ⟨statusWord s, []⟩ ++ s.responses ∧
      t.input = s.input.drop k := by
  induction k generalizing s with
  | zero => exact ⟨s, rfl, rfl, by simp, rfl⟩
  | succ k ih =>
    cases hq : s.input with
    | nil =>
      obtain ⟨t, ht, harch, hresp, hin⟩ := ih hf hcmd
      exact ⟨t, (runSteps_succ k (step_of_idle hq)).trans ht, harch, by simp [hresp, hq], by simp [hin, hq]⟩
    | cons e rest =>
      cases e with
      | command c =>
        have hrest : (rejectCommand s).input = rest := by simp [rejectCommand, hq]
        obtain ⟨t, ht, harch, hresp, hin⟩ := ih (s := rejectCommand s) hf
          fun e he => hcmd e (by rw [hq]; exact List.mem_cons_of_mem _ (hrest ▸ he))
        refine ⟨t, (runSteps_succ k (step_of_fault hq hf)).trans ht, harch, ?_, by rw [hin, hrest, List.drop_succ_cons]⟩
        rw [hresp, hrest]
        simp [rejectCommand, Nat.succ_min_succ, List.replicate_succ']
      | reset => simp [hq, HostEvent.isCommand] at hcmd
      | commandCutByReset c => simp [hq, HostEvent.isCommand] at hcmd

/-- R200: a step at a reset, between commands or cutting one off, is the reset. -/
theorem step_of_reset {s : State} {e : HostEvent} {rest : List HostEvent} (hq : s.input = e :: rest)
    (he : e.isCommand = false) : step s = .next (resetEngine s) := by
  cases e with
  | command c => cases he
  | reset => simp [step, hq]
  | commandCutByReset c => simp [step, hq]

/-- Settles O38: the run by induction on its length; the step at a reset is the reset. -/
theorem faultPersistsUntilReset : Obligations.FaultPersistsUntilReset :=
  ⟨fun k _ => runSteps_of_fault k, fun _ _ _ hq he => ⟨_, step_of_reset hq he, rfl, rfl⟩⟩

end Sys2Proof.Machine
end

section
/-! PROOFS. The encoding both ways, and the commands the assembler emits (R60, R63 to R74). -/

namespace Sys2Proof

/-- Settles O1: the fields of an encoded word are the instruction's own. -/
theorem decodeOfEncode : Obligations.DecodeOfEncode := fun _ h => decode_encode h

/-- The word is its three fields, put at their places (R63). -/
theorem word_eq_fields (w : CommandWord) :
    w.toNat = opField w + 16 * laneCountField w + 512 * reservedField w := by
  rw [opField_eq, laneCountField_eq, reservedField_eq]
  omega

theorem laneCountField_lt (w : CommandWord) : laneCountField w < 32 := by
  rw [laneCountField_eq]
  exact Nat.mod_lt _ (by decide)

/-- Settles O2: the word and the encoding are the same number, put together from the same fields. -/
theorem encodeOfDecode : Obligations.EncodeOfDecode := by
  intro w i h
  rcases decode_cases w with ⟨-, hd⟩ | ⟨-, -, hd⟩ | ⟨j, hd, hop, hn, hr⟩ <;> cases hd.symm.trans h
  have hwf : i.laneField < 32 := hn ▸ laneCountField_lt w
  have hword : (encode i).toNat = w.toNat := by
    rw [encode_toNat i hwf, word_eq_fields w, hop, hn, hr, Nat.mul_zero, Nat.add_zero]
  exact ⟨BitVec.eq_of_toNat_eq hword, hwf⟩

/-- Settles O3: the decoder, run on each word. -/
theorem exampleWordsDecode : Obligations.ExampleWordsDecode := by
  unfold Obligations.ExampleWordsDecode
  decide

end Sys2Proof

namespace Sys2Proof.Machine

theorem assembleOne_of_legal {i : Instr} {d : List Byte} (hl : i.laneCountLegal = true)
    (hd : d.length = dataLength i) : assembleOne i d = some [⟨encode i, d⟩] := by
  rw [assembleOne, assembleCommand_of_legal hl hd, Option.map_some]

/-- Settles O4: each line is one command of legal operands, whose encoding is the word written out. -/
theorem assemblerWords : Obligations.AssemblerWords := by
  refine ⟨rfl, rfl, fun n d h1 h25 => ?_⟩
  have hn : (1 ≤ n && n ≤ 25) = true := by simp [h1, h25]
  exact ⟨assembleOne_of_legal (i := .extract n) hn rfl,
    fun hd => ⟨assembleOne_of_legal (i := .absorb n) hn hd, assembleOne_of_legal (i := .xorLanes n) hn hd⟩,
    assembleOne_of_legal (i := .absorb576) rfl, assembleOne_of_legal (i := .absorb832) rfl,
    assembleOne_of_legal (i := .absorb1024) rfl, assembleOne_of_legal (i := .absorb1088) rfl,
    assembleOne_of_legal (i := .absorb1152) rfl, assembleOne_of_legal (i := .absorb1344) rfl⟩

/-- R60, R69: no legal command consumes more DATA than the interface carries. -/
theorem dataLength_le {i : Instr} (hl : i.laneCountLegal = true) : dataLength i ≤ 200 := by
  cases i <;> simp_all [Instr.laneCountLegal, dataLength] <;> omega

/-- R60, R69, R72: an emitted command passes the operand checks that need no engine. -/
theorem operandsLegal_of_assembleCommand {i : Instr} {d : List Byte} {c : Command} (h : assembleCommand i d = some c) :
    c.WellFormed ∧ ∃ i, decode c.word = .instr i ∧ i.laneCountLegal = true ∧ c.data.length = dataLength i := by
  rw [assembleCommand, Option.ite_none_right_eq_some] at h
  obtain ⟨⟨hl, hd⟩, hc⟩ := h
  cases hc
  have hwf : (⟨encode i, d⟩ : Command).WellFormed := hd.trans_le (dataLength_le hl)
  exact ⟨hwf, i, decode_encode (wellFormed_of_laneCountLegal hl), hl, hd⟩

/-- Everything an accepted line can stand for: one command, or the two of SQUEEZE (R72, R73). -/
theorem assemble_cases {l : AsmLine} {cs : List Command} (h : assemble l = some cs) :
    (∃ i d, assembleOne i d = some cs) ∨
    (∃ n e, assembleCommand (.extract n) [] = some e ∧ cs = [⟨encode .permute, []⟩, e]) := by
  cases l with
  | absorbBits r d =>
    obtain ⟨-, h⟩ := Option.ite_none_right_eq_some.1 h
    exact .inl ⟨_, _, h⟩
  | extractBytes k =>
    obtain ⟨-, h⟩ := Option.ite_none_right_eq_some.1 h
    exact .inl ⟨_, _, h⟩
  | squeeze n =>
    rw [assemble_squeeze, Option.map_eq_some_iff] at h
    obtain ⟨e, he, rfl⟩ := h
    exact .inr ⟨n, e, he, rfl⟩
  | _ => exact .inl ⟨_, _, h⟩

/-- Settles O5: whatever the line, each command comes from `assembleCommand`, which has made the checks. -/
theorem assembledCommandsPassOperandChecks : Obligations.AssembledCommandsPassOperandChecks := by
  intro l cs h
  rcases assemble_cases h with ⟨i, d, hone⟩ | ⟨n, e, he, rfl⟩
  · obtain ⟨c, hc, rfl⟩ := Option.map_eq_some_iff.1 hone
    exact ⟨List.cons_ne_nil _ _, List.forall_mem_singleton.2 (operandsLegal_of_assembleCommand hc)⟩
  · have hp : assembleCommand .permute [] = some ⟨encode .permute, []⟩ := assembleCommand_of_legal rfl rfl
    exact ⟨List.cons_ne_nil _ _, List.forall_mem_cons.2 ⟨operandsLegal_of_assembleCommand hp,
      List.forall_mem_singleton.2 (operandsLegal_of_assembleCommand he)⟩⟩

end Sys2Proof.Machine
end

section
/-! PROOFS. The fields of the STATUS word, and the invariant every step keeps (R27, R49, R61). -/

namespace Sys2Proof.Machine

/-! ## The STATUS word -/

/-- R27: the single bits and the reserved bits of a STATUS word. -/
theorem packStatus_fields (initDone fault : Bool) (cause : Cause) :
    (packStatus initDone fault cause).getLsbD 0 = initDone ∧ (packStatus initDone fault cause).getLsbD 1 = fault ∧
    (packStatus initDone fault cause).extractLsb' 2 2 = 0 ∧ (packStatus initDone fault cause).extractLsb' 8 24 = 0 := by
  cases cause <;> revert initDone fault <;> decide

/-- Settles O32: the bits of the packed word, and the code of its cause. -/
theorem statusWordFields : Obligations.StatusWordFields := by
  intro s
  obtain ⟨hinit, hfault, hlow, hhigh⟩ := packStatus_fields s.initDone s.fault s.cause
  exact ⟨hinit, hfault, hlow, hhigh, statusWord_cause_toNat s⟩

/-- R180: the codes are 0..5, and 0 is that of no fault alone. -/
theorem code_le (c : Cause) : c.code.toNat ≤ 5 := by cases c <;> decide

theorem code_eq_zero_iff (c : Cause) : c.code = 0 ↔ c = .none := by cases c <;> decide

/-! ## The invariant -/

/-- R49, R61: a response is well formed where CAUSE is none exactly while FAULT is 0, and OUT is whole lanes, and empty on an
engine that is faulted or not initialised. -/
theorem response_wellFormed {s : State} {out : List Byte} (h : s.fault = true ↔ s.cause ≠ .none)
    (hlen : ∃ n, n ≤ 25 ∧ out.length = 8 * n) (hempty : s.fault = true ∨ s.initDone = false → out = []) :
    (⟨statusWord s, out⟩ : Response).WellFormed := by
  obtain ⟨hinit, hfault, hlow, hhigh⟩ := packStatus_fields s.initDone s.fault s.cause
  refine ⟨hlow, hhigh, ?_, ?_, hlen, ?_⟩
  · rw [statusWord_cause]
    exact code_le s.cause
  · rw [statusWord_cause, ne_eq, code_eq_zero_iff, statusWord, hfault]
    exact h
  · simp only [statusWord, hfault, hinit]
    exact hempty

/-- Responding keeps the invariant, the new response being well formed. -/
theorem Inv.respond {s : State} {out : List Byte} (h : Inv s) (hlen : ∃ n, n ≤ 25 ∧ out.length = 8 * n)
    (hempty : s.fault = true ∨ s.initDone = false → out = []) : Inv (respond out s) := by
  obtain ⟨hcause, hresp⟩ := h
  exact ⟨hcause, List.forall_mem_cons.2 ⟨response_wellFormed hcause hlen hempty, hresp⟩⟩

theorem Inv.respond_nil {s : State} (h : Inv s) : Inv (Machine.respond [] s) :=
  h.respond ⟨0, by decide, rfl⟩ fun _ => rfl

theorem Inv.recordFault {s : State} (h : Inv s) {c : Cause} (hc : c ≠ .none) : Inv (s.recordFault c) := by
  obtain ⟨-, hresp⟩ := h
  exact ⟨iff_of_true rfl hc, hresp⟩

theorem Inv.resetEngine {s : State} (h : Inv s) : Inv (resetEngine s) := by
  obtain ⟨-, hresp⟩ := h
  refine ⟨iff_of_false Bool.false_ne_true (not_not_intro rfl), ?_⟩
  rw [resetEngine_responses]
  exact hresp

/-- An effect writes neither FAULT nor CAUSE nor a response. -/
theorem Inv.instrEffect {s : State} (h : Inv s) (i : Instr) : Inv (instrEffect i s) := by
  obtain ⟨hfault, hcause, -, hresp, -, -⟩ := instrEffect_frame i s
  rw [Inv, hfault, hcause, hresp]
  exact h

/-- R49, R160: EXTRACT alone has an OUT, of whole lanes; its checks pass only on an initialised engine. -/
theorem Inv.respond_instrOut {s : State} (h : Inv s) {i : Instr} (hf : s.fault = false)
    (hk : firstCause (instrChecks i s) = none) : Inv (Machine.respond (instrOut i s) (Machine.instrEffect i s)) := by
  cases i with
  | extract n =>
    obtain ⟨-, -, hinit⟩ := (firstCause_instrChecks_eq_none _ s).1 hk
    exact h.respond ⟨min n 25, Nat.min_le_right n 25, leadingBytes_length s.lanes n⟩ (by simp [hf, hinit])
  | _ => exact (h.instrEffect _).respond_nil

/-- Settles O47: each thing a step can do is put together from operations that keep the invariant. -/
theorem invariantKeptByEveryStep : Obligations.InvariantKeptByEveryStep := by
  intro s t h hstep
  obtain ⟨u, hu, hcases⟩ := step_inversion s
  cases hu.symm.trans hstep
  rcases hcases with ⟨-, rfl⟩ | ⟨e, rest, -, -, rfl⟩ | ⟨c, rest, -, -, rfl⟩ | ⟨c, rest, cause, -, -, hc, rfl⟩ |
    ⟨c, rest, i, -, hf, -, hk, rfl⟩
  · exact h
  · exact h.resetEngine
  · exact h.respond_nil
  · exact (h.recordFault hc).respond_nil
  · exact h.respond_instrOut hf hk

/-- Settles O46: after reset FAULT is 0, CAUSE none, and no response was given. -/
theorem invariantAtReset : Obligations.InvariantAtReset :=
  ⟨iff_of_false Bool.false_ne_true (not_not_intro rfl), nofun⟩

end Sys2Proof.Machine
end

section
/-! PROOFS. What S holds before an INIT completes cannot be told from any response (R28, R34, R50). -/

namespace Sys2Proof.Machine

theorem SameEngine.sameVisible {s t : State} (h : SameEngine s t) : SameVisible s t := by
  obtain ⟨hl, hi, hf, hc, hq⟩ := sameEngine_iff.1 h
  exact ⟨hi, hf, hc, hq, fun _ => hl⟩

section
variable {s t : State} (h : SameVisible s t)
include h

/-- Once an INIT has completed nothing of the engine is hidden. -/
theorem SameVisible.sameEngine (hinit : s.initDone = true) : SameEngine s t := by
  obtain ⟨hi, hf, hc, hq, hl⟩ := h
  exact sameEngine_iff.2 ⟨hl hinit, hi, hf, hc, hq⟩

theorem SameVisible.recordFault (c : Cause) : SameVisible (s.recordFault c) (t.recordFault c) := by
  obtain ⟨hi, -, -, hq, hl⟩ := h
  exact ⟨hi, rfl, rfl, hq, hl⟩

/-- After a reset both engines hold STATUS 0, and S is hidden again (R200). -/
theorem SameVisible.resetEngine : SameVisible (resetEngine s) (resetEngine t) := by
  obtain ⟨-, -, -, hq, -⟩ := h
  exact ⟨rfl, rfl, rfl, by simp [hq], nofun⟩

/-- INIT overwrites S; every other effect runs on an initialised engine, where S agrees. -/
theorem SameVisible.instrEffect {i : Instr} (hinit : i ≠ .init → s.initDone = true) :
    SameVisible (instrEffect i s) (instrEffect i t) := by
  by_cases hi : i = .init
  · obtain ⟨-, hf, hc, hq, -⟩ := h
    subst hi
    exact ⟨rfl, hf, hc, hq, fun _ => rfl⟩
  · exact ((h.sameEngine (hinit hi)).instrEffect i).sameVisible

/-- The OUT of an instruction that may run on this engine depends on what is visible alone. -/
theorem SameVisible.instrOut_eq {i : Instr} (hinit : i ≠ .init → s.initDone = true) : instrOut i s = instrOut i t := by
  by_cases hi : i = .init
  · subst hi
    rfl
  · exact (h.sameEngine (hinit hi)).instrOut_eq i

end

/-- Responding with the same OUT adds the same response to both (R61). -/
theorem respond_answersAlike_visible {s t a b : State} (h : SameVisible a b) (hs : a.responses = s.responses)
    (ht : b.responses = t.responses) (out : List Byte) :
    AnswersAlike SameVisible s t (.next (respond out a)) (.next (respond out b)) := by
  obtain ⟨hi, hf, hc, hq, hl⟩ := h
  refine ⟨_, _, [⟨statusWord a, out⟩], rfl, rfl, ⟨hi, hf, hc, by simp [hq], hl⟩, by simp [hs], ?_⟩
  simp [ht, statusWord_congr b hi hf hc]

theorem takeFault_answersAlike_visible {s t : State} (h : SameVisible s t) (c : Cause) :
    AnswersAlike SameVisible s t (.next (takeFault c s)) (.next (takeFault c t)) := by
  have ⟨_, hf, _, _, _⟩ := h
  rcases takeFault_cases c s with ⟨hs, hes⟩ | ⟨hs, hes⟩ <;> rcases takeFault_cases c t with ⟨ht, het⟩ | ⟨ht, het⟩
  · rw [hes, het]; exact respond_answersAlike_visible h rfl rfl []
  · simp [hf, ht] at hs
  · simp [hf, ht] at hs
  · rw [hes, het]; exact respond_answersAlike_visible (h.recordFault c) rfl rfl []

/-- Every instruction is answered alike: the checks read STATUS and DATA alone, and they pass without an INIT only for
INIT itself. -/
theorem exec_answersAlike_visible {s t : State} (h : SameVisible s t) (i : Instr) :
    AnswersAlike SameVisible s t (exec i s) (exec i t) := by
  have ⟨hi, hf, _, hq, _⟩ := h
  have hchecks := instrChecks_congr i hi hq
  rw [exec_eq_runCommand, exec_eq_runCommand, ← hchecks]
  cases hs : s.fault with
  | true =>
    rw [runCommand_of_fault hs, runCommand_of_fault (hf ▸ hs)]
    exact respond_answersAlike_visible h rfl rfl []
  | false =>
    cases hk : firstCause (instrChecks i s) with
    | some c =>
      rw [runCommand_of_failed hs hk, runCommand_of_failed (hf ▸ hs) hk]
      exact respond_answersAlike_visible (h.recordFault c) rfl rfl []
    | none =>
      obtain ⟨-, -, hinit⟩ := (firstCause_instrChecks_eq_none i s).1 hk
      obtain ⟨-, -, -, hrs, -, -⟩ := instrEffect_frame i s
      obtain ⟨-, -, -, hrt, -, -⟩ := instrEffect_frame i t
      rw [runCommand_of_passed hs hk, runCommand_of_passed (hf ▸ hs) hk, h.instrOut_eq hinit]
      exact respond_answersAlike_visible (h.instrEffect hinit) hrs hrt _

/-- One step, at a command, at a reset or idle, of two engines that no host can tell apart. -/
theorem step_answersAlike_visible (s t : State) (h : SameVisible s t) :
    AnswersAlike SameVisible s t (step s) (step t) := by
  have ⟨_, _, _, hq, _⟩ := h
  rcases step_cases s with ⟨hs, -⟩ | ⟨e, rest, hs, hne, -⟩ | ⟨c, rest, i, hs, hd, -⟩ | ⟨c, rest, e, hs, hd, -⟩
  · rw [step_of_idle hs, step_of_idle (hq ▸ hs)]
    exact answersAlike_next h
  · have he : e.isCommand = false := by
      cases e with
      | command c => exact absurd rfl (hne c)
      | _ => rfl
    rw [step_of_reset hs he, step_of_reset (hq ▸ hs) he]
    exact ⟨_, _, [], rfl, rfl, h.resetEngine, resetEngine_responses s, resetEngine_responses t⟩
  · rw [step_of_command hs hd, step_of_command (hq ▸ hs) hd]
    exact exec_answersAlike_visible h i
  · rw [step_of_illegal hs hd, step_of_illegal (hq ▸ hs) hd]
    exact takeFault_answersAlike_visible h _

/-- Settles O49: the step lemma, carried along the run. -/
theorem resetContentsUnobservable : Obligations.ResetContentsUnobservable := fun k _ _ h =>
  runSteps_answersAlike step_answersAlike_visible k h

end Sys2Proof.Machine
end

section
/-! PROOFS. The codec both ways (R46). -/

namespace Sys2Proof.Machine

/-- Settles O9: the lane read back has the same eight bytes. -/
theorem laneSurvivesTheCodec : Obligations.LaneSurvivesTheCodec := by
  intro l
  apply lane_ext_bytes
  intro k hk
  rw [bytesToLane_byte _ k hk, List.getD_eq_getElem?_getD, laneToBytes_getElem? l k hk, Option.getD_some]

/-- Settles O10: byte k of the lane is byte k of the string, which has no more bytes than the lane. -/
theorem bytesSurviveTheCodec : Obligations.BytesSurviveTheCodec := by
  intro b hb
  apply List.ext_getElem (by rw [laneToBytes_length, hb])
  intro k hk hkb
  rw [List.getElem_eq_iff, laneToBytes_getElem? _ k (hb ▸ hkb), bytesToLane_byte b k (hb ▸ hkb),
    List.getD_eq_getElem b 0 hkb]

end Sys2Proof.Machine
end

section
/-! PROOFS. Linearity of theta, rho and pi as one formula, chi on the bits of a row, and the sub-steps as bijections
(R102, R107, R108, R110, R114). -/

namespace Sys2Proof.Machine

/-! ## theta -/

theorem columnParity_zipWith_xor (a b : Lanes) (x : Fin 5) :
    (columnParity (Vector.zipWith (· ^^^ ·) a b)).get x = (columnParity a).get x ^^^ (columnParity b).get x := by
  simp only [columnParity_get, lane_zipWith_xor]
  ac_rfl

theorem thetaEffect_zipWith_xor (a b : Lanes) (x : Fin 5) :
    (thetaEffect (columnParity (Vector.zipWith (· ^^^ ·) a b))).get x =
      (thetaEffect (columnParity a)).get x ^^^ (thetaEffect (columnParity b)).get x := by
  simp only [thetaEffect_get, columnParity_zipWith_xor, rol64_xor]
  ac_rfl

/-- R102: theta of an XOR is the XOR of the thetas. -/
theorem theta_zipWith_xor (a b : Lanes) :
    theta (Vector.zipWith (· ^^^ ·) a b) = Vector.zipWith (· ^^^ ·) (theta a) (theta b) := by
  apply lanes_ext
  intro x hx y hy
  simp only [lane_zipWith_xor, lane_theta _ x y hx hy, thetaEffect_zipWith_xor]
  ac_rfl

/-- R102: with the five parities 0 there is no effect D. -/
theorem theta_of_zero_parity {a : Lanes} (h : ∀ x, (columnParity a).get x = 0#64) : theta a = a := by
  apply lanes_ext
  intro x hx y hy
  rw [lane_theta a x y hx hy, thetaEffect_get, h, h, rol64_zero, BitVec.xor_zero, BitVec.xor_zero]

/-- Settles O13: the single bit, its theta and its second theta are told apart by lanes (1, 0) and (2, 0). -/
theorem thetaLinearNotInvolutive : Obligations.ThetaLinearNotInvolutive := by
  refine ⟨theta_zipWith_xor, theta_of_zero_parity fun x => ?_, fun a h => theta_of_zero_parity fun x => ?_, ?_, ?_, ?_⟩
  · simp [columnParity_get]
  · rw [columnParity_get]
    exact h x.val x.isLt
  · exact ne_of_apply_ne (lane · 1 0) (by decide)
  · exact ne_of_apply_ne (lane · 2 0) (by decide)
  · exact ne_of_apply_ne (lane · 2 0) (by decide)

/-! ## rho and pi -/

/-- R106, R107: the index of the lane that pi moves to index i. -/
theorem pi_getElem (a : Lanes) (i : Nat) (h : i < 25) :
    (pi a)[i] = a[(i + 3 * (i / 5)) % 5 + 5 * (i % 5)]'(by omega) := by
  have hx : ((i + 3 * (i / 5)) % 5 + 5 * (i % 5)) % 5 = (i % 5 + 3 * (i / 5)) % 5 := by omega
  have hy : ((i + 3 * (i / 5)) % 5 + 5 * (i % 5)) / 5 = i % 5 := by omega
  rw [getElem_eq_lane, lane_pi, getElem_eq_lane, hx, hy, lane_mod_left]

/-- R107: pi lists the old lanes in the order of their source indices. -/
theorem pi_toList (a : Lanes) :
    (pi a).toList = (List.range 25).map fun i => a.getD ((i + 3 * (i / 5)) % 5 + 5 * (i % 5)) 0 := by
  apply List.ext_getElem (by simp)
  intro i h _
  have hi : i < 25 := by simpa using h
  have hsource : (i + 3 * (i / 5)) % 5 + 5 * (i % 5) < 25 := by omega
  simp [pi_getElem a i hi, Vector.getD, hsource]

/-- Settles O17: the stated table lists pi's source indices; rho's lane, moved by pi. -/
theorem rhoThenPi : Obligations.RhoThenPi := by
  refine ⟨fun a => ?_, fun a x hx y hy => ?_⟩
  · rw [pi_toList]
    rfl
  · rw [lane_pi_target, lane_rho a x y hx hy]

/-! ## chi on a row's bits -/

/-- R109: a bit of chi, from the bit and its two neighbours in the row. -/
theorem lane_chi_getLsbD (a : Lanes) (x y : Nat) {z : Nat} (hz : z < 64) :
    (lane (chi a) x y).getLsbD z =
      ((lane a x y).getLsbD z ^^ (!(lane a (x + 1) y).getLsbD z && (lane a (x + 2) y).getLsbD z)) := by
  simp [lane_chi, hz]

/-- A row has five positions. -/
theorem lane_add_five (a : Lanes) (x y : Nat) : lane a (x + 5) y = lane a x y :=
  lane_congr_left a y (Nat.add_mod_right x 5)

/-- R110: chi keeps every state whose lanes are all equal, since ~v & v is 0. -/
theorem chi_constLanes (v : Lane) : chi (constLanes v) = constLanes v := by
  apply lanes_ext
  intro x _ y _
  simp [lane_chi]

/-- Settles O19: the five bits of the row decide, and the table is chi on each of their 32 values. -/
theorem chiRowTable : Obligations.ChiRowTable := by
  unfold Obligations.ChiRowTable
  intro chi5 row
  refine ⟨fun a y _ z hz => ?_, by decide, chi_constLanes _, chi_constLanes _⟩
  simp only [row, lane_chi_getLsbD _ _ _ hz, Nat.reduceAdd, lane_add_five a 0 y, lane_add_five a 1 y]
  generalize (lane a 0 y).getLsbD z = b0, (lane a 1 y).getLsbD z = b1, (lane a 2 y).getLsbD z = b2,
    (lane a 3 y).getLsbD z = b3, (lane a 4 y).getLsbD z = b4
  revert b0 b1 b2 b3 b4
  decide

/-! ## Bijections -/

theorem rho_injective : Function.Injective rho := by
  intro a b h
  apply lanes_ext
  intro x hx y hy
  have hlane := congrArg (fun v => rol64 (lane v x y) (64 - rotationTable.get (gridIndex x y))) h
  have hlt := rotationTable_lt (gridIndex x y)
  simp only [lane_rho _ x y hx hy, rol64_rol64] at hlane
  simpa only [rol64_of_mod_eq_zero _ (rotationTable.get (gridIndex x y) + (64 - rotationTable.get (gridIndex x y)))
    (by omega)] using hlane

theorem pi_injective : Function.Injective pi := by
  intro a b h
  apply lanes_ext
  intro x _ y _
  rw [← lane_pi_target a x y, ← lane_pi_target b x y, h]

/-- theta's parities decide the old parities, and with them the effect D that each lane was given. -/
theorem theta_injective : Function.Injective theta := by
  intro a b h
  have hmix : (mix 1 1 fun x => (columnParity a).get x) = mix 1 1 fun x => (columnParity b).get x := by
    funext x
    rw [← columnParity_theta, ← columnParity_theta, h]
  have hparity (x : Fin 5) : (columnParity a).get x = (columnParity b).get x := congrFun (mix_one_injective hmix) x
  apply lanes_ext
  intro x hx y hy
  have hlane := congrArg (lane · x y) h
  simp only [lane_theta _ x y hx hy, thetaEffect_get, hparity] at hlane
  exact (BitVec.xor_left_inj _).1 hlane

/-- A row's bit before chi, from its five bits after chi, the bit at the same place first. -/
theorem chi_row_inverse (b0 b1 b2 b3 b4 : Bool) :
    b0 = ((b0 ^^ (!b1 && b2)) ^^
      (!(b1 ^^ (!b2 && b3)) && ((b2 ^^ (!b3 && b4)) ^^ (!(b3 ^^ (!b4 && b0)) && (b4 ^^ (!b0 && b1)))))) := by
  revert b0 b1 b2 b3 b4
  decide

/-- A bit of the old state, from its row after chi. -/
theorem lane_getLsbD_of_chi (a : Lanes) (x y : Nat) {z : Nat} (hz : z < 64) :
    (lane a x y).getLsbD z = ((lane (chi a) x y).getLsbD z ^^
      (!(lane (chi a) (x + 1) y).getLsbD z && ((lane (chi a) (x + 2) y).getLsbD z ^^
        (!(lane (chi a) (x + 3) y).getLsbD z && (lane (chi a) (x + 4) y).getLsbD z)))) := by
  simp only [lane_chi_getLsbD _ _ _ hz, Nat.add_assoc, Nat.reduceAdd, lane_add_five]
  exact chi_row_inverse _ _ _ _ _

theorem chi_injective : Function.Injective chi := by
  intro a b h
  apply lanes_ext
  intro x _ y _
  apply BitVec.eq_of_getLsbD_eq
  intro z hz
  rw [lane_getLsbD_of_chi a x y hz, lane_getLsbD_of_chi b x y hz, h]

/-- The same constant, XORed in twice, is gone. -/
theorem iota_involutive (ir : Fin 24) : Function.Involutive fun a => iota a ir := by
  intro a
  apply Vector.ext
  intro i hi
  by_cases h0 : i = 0
  · subst h0
    rw [iota_getElem_zero, iota_getElem_zero, BitVec.xor_assoc, BitVec.xor_self, BitVec.xor_zero]
  · rw [iota_getElem_of_ne_zero _ ir hi h0, iota_getElem_of_ne_zero a ir hi h0]

theorem keccakRound_injective (ir : Fin 24) : Function.Injective fun a => keccakRound a ir :=
  (iota_involutive ir).injective.comp
    (chi_injective.comp (pi_injective.comp (rho_injective.comp theta_injective)))

theorem foldl_keccakRound_injective (rounds : List (Fin 24)) : Function.Injective fun a => rounds.foldl keccakRound a := by
  induction rounds with
  | nil => exact Function.injective_id
  | cons ir rounds ih => exact ih.comp (keccakRound_injective ir)

/-- There are finitely many states: as many as 25 numbers below 2^64. -/
theorem finite_lanes : Finite Lanes :=
  Finite.of_injective (fun (a : Lanes) (i : Fin 25) => (a.get i).toFin) fun _ _ h =>
    Vector.ext fun i hi => BitVec.eq_of_toFin_eq (congrFun h ⟨i, hi⟩)

/-- What loses no state reaches every state. -/
theorem bijective_of_injective {f : Lanes → Lanes} (h : Function.Injective f) : Function.Bijective f :=
  have := finite_lanes
  Finite.injective_iff_bijective.1 h

/-- Settles O23: each sub-step loses nothing, so no round does, nor do 24 of them. -/
theorem permutationIsBijective : Obligations.PermutationIsBijective :=
  ⟨bijective_of_injective theta_injective, bijective_of_injective rho_injective, bijective_of_injective pi_injective,
    bijective_of_injective chi_injective, fun ir => (iota_involutive ir).bijective,
    bijective_of_injective (foldl_keccakRound_injective _)⟩

end Sys2Proof.Machine
end

section
/-! PROOFS. What each command does on an engine that no check stops, where a lane count stops it, and its frame
(R80 to R181). -/

namespace Sys2Proof.Machine

/-! ## A step at a command -/

/-- Settles O42: the step at a command that decodes, and where its DATA is read. -/
theorem stepRunsTheDecodedCommand : Obligations.StepRunsTheDecodedCommand := fun s _ _ _ hq hd =>
  ⟨step_of_command hq hd, dataOperand_of_input s hq⟩

/-- Settles O43: the step with no event pending. -/
theorem idleEngineWaits : Obligations.IdleEngineWaits := fun _ => step_of_idle

/-! ## The effect, where no check stops the command -/

/-- R80: an INIT that no check stops. -/
theorem exec_init_of_passed {s : State} (hf : s.fault = false) (hd : dataOperand s = []) :
    exec .init s = .next (respond [] ((s.withLanes (constLanes 0)).markInitialised)) :=
  exec_of_passed hf rfl (congrArg List.length hd) (absurd rfl)

/-- Settles O25: INIT's effect, lane by lane. -/
theorem initZeroesTheState : Obligations.InitZeroesTheState := fun _ hf hd =>
  ⟨_, exec_init_of_passed hf hd, constLanes_getElem 0, rfl, hf, rfl, rfl, rfl, rfl⟩

/-- A ready engine completes a command that writes S alone: S becomes f of S and DATA, STATUS is unchanged, OUT empty. -/
theorem exec_updateLanes_of_ready {s : State} {i : Instr} {len : Nat} {f : Lanes → List Byte → Lanes} (h : Ready s len)
    (heffect : instrEffect i = updateLanes f) (hout : instrOut i = noOutput) (hl : i.laneCountLegal = true)
    (hlen : dataLength i = len) :
    ∃ t, exec i s = .next t ∧ t.lanes = f s.lanes (dataOperand s) ∧ SameStatus s t ∧ Answered s t [] := by
  obtain ⟨hf, hinit, hd⟩ := h
  exact ⟨_, exec_updateLanes_of_passed heffect hout rfl hf hinit hl (hd.trans hlen.symm), rfl, ⟨rfl, rfl, rfl⟩,
    rfl, rfl, rfl⟩

/-- Settles O26: PERMUTE writes S alone, and has no lane count to check. -/
theorem permuteAppliesThePermutation : Obligations.PermuteAppliesThePermutation := fun _ h =>
  exec_updateLanes_of_ready (i := .permute) (f := fun a _ => keccakF1600 a) h rfl rfl rfl rfl

/-- Settles O27: ABSORB writes S alone, and its lane count is legal. -/
theorem absorbXorsThenPermutes : Obligations.AbsorbXorsThenPermutes := fun _ n h1 h25 h =>
  exec_updateLanes_of_ready (i := .absorb n) (f := absorbLanes n) h rfl rfl (by simp [Instr.laneCountLegal, h1, h25]) rfl

/-- Settles O28: each is ABSORB at its own lane count. -/
theorem fixedAbsorbsXorThenPermute : Obligations.FixedAbsorbsXorThenPermute := by
  intro p hp s h
  obtain ⟨-, -, ⟨h1, h25⟩, -⟩ := exec_of_mem_fixedAbsorbs (i := p.1) (k := p.2) hp
  rw [exec_fixedAbsorb_eq_absorb (i := p.1) (k := p.2) hp]
  exact absorbXorsThenPermutes s p.2 h1 h25 h

/-- Settles O29: XOR_LANES writes S alone, and its lane count is legal. -/
theorem xorLanesXorsWithoutPermuting : Obligations.XorLanesXorsWithoutPermuting := fun _ n h1 h25 h =>
  exec_updateLanes_of_ready (i := .xorLanes n) (f := fun a data => xorDataLanes a data n) h rfl rfl
    (by simp [Instr.laneCountLegal, h1, h25]) rfl

/-- Settles O30: OUT is the leading lanes' bytes, whose number and values are the codec's laws. -/
theorem extractReadsLeadingLanes : Obligations.ExtractReadsLeadingLanes := by
  intro s n h1 h25 h
  refine ⟨_, _, exec_extract_of_ready h1 h25 h, rfl, respond_answered s _, ?_,
    fun k hk hn => leadingBytes_getElem? s.lanes n k hk hn⟩
  rw [leadingBytes_length, Nat.min_eq_left h25]

/-! ## An illegal lane count -/

/-- Settles O35: the lane-count check is the first of all three commands. -/
theorem laneCountOutOfRangeFaults : Obligations.LaneCountOutOfRangeFaults := by
  intro s n hn hf i hi
  have hl : i.laneCountLegal = false := by
    have : ¬ (1 ≤ n ∧ n ≤ 25) := by omega
    simp only [List.mem_cons, List.not_mem_nil, or_false] at hi
    rcases hi with rfl | rfl | rfl <;> simpa [Instr.laneCountLegal] using this
  exact ⟨_, exec_of_failed hf (firstCause_of_illegalLaneCount s hl), rfl, rfl, rfl, rfl, rfl, rfl, rfl⟩

/-! ## The frame of every command -/

/-- Everything exec can answer: the rejection, a fault, or the effect with its OUT. -/
theorem exec_cases {i : Instr} {s t : State} (h : exec i s = .next t) :
    (s.fault = true ∧ t = respond [] s) ∨
    (s.fault = false ∧ ∃ c, t = respond [] (s.recordFault c)) ∨
    (s.fault = false ∧ t = respond (instrOut i s) (instrEffect i s)) := by
  rw [exec_eq_runCommand] at h
  cases h
  rcases runCommand_cases (instrChecks i s) (instrEffect i) (instrOut i) s with ⟨hf, e⟩ | ⟨hf, c, -, e⟩ | ⟨hf, -, e⟩
  · exact .inl ⟨hf, e⟩
  · exact .inr (.inl ⟨hf, c, e⟩)
  · exact .inr (.inr ⟨hf, e⟩)

/-- R160: EXTRACT alone has an OUT. -/
theorem instrOut_eq_nil {i : Instr} (h : ∀ n, i ≠ .extract n) (s : State) : instrOut i s = [] := by
  cases i with
  | extract n => exact absurd rfl (h n)
  | _ => rfl

/-- R141, R150: XOR_LANES N does not reach lanes N..24. -/
theorem instrEffect_xorLanes_getElem (n : Nat) (s : State) {j : Nat} (h : j < 25) (hn : n ≤ j) :
    (instrEffect (.xorLanes n) s).lanes[j] = s.lanes[j] :=
  (xorDataLanes_getElem s.lanes (dataOperand s) n h).trans (if_neg hn.not_gt)

/-- Settles O45: where no check stops the command its effect decides; else S and INIT_DONE are as they were. -/
theorem execFrame : Obligations.ExecFrame := by
  intro i s t h
  rcases exec_cases h with ⟨hf, rfl⟩ | ⟨hf, c, rfl⟩ | ⟨hf, rfl⟩
  · exact ⟨⟨[], respond_answered s [], fun _ => rfl, fun _ => rfl⟩, fun _ => ⟨rfl, rfl⟩, fun _ => rfl,
      fun _ => rfl, fun _ => rfl, fun _ => rfl, fun _ _ _ _ _ => rfl⟩
  · exact ⟨⟨[], ⟨rfl, rfl, rfl⟩, fun _ => rfl, fun _ => rfl⟩, fun _ => ⟨rfl, rfl⟩, fun hs => absurd hs (by simp [hf]),
      nofun, fun _ => rfl, fun _ => rfl, fun _ _ _ _ _ => rfl⟩
  · obtain ⟨hfault, hcause, hin, hresp, hsource, hinit⟩ := instrEffect_frame i s
    have hok : (respond (instrOut i s) (instrEffect i s)).fault ≠ true := by simp [hfault, hf]
    refine ⟨⟨instrOut i s, ?_, fun ht => absurd ht hok, fun hne => instrOut_eq_nil hne s⟩, fun ht => absurd ht hok,
      fun hs => absurd hs (by simp [hf]), fun _ => hcause, hinit, ?_, ?_⟩
    · exact ⟨by simp [statusWord, hresp], by simp [hin], hsource⟩
    · rintro ⟨n, rfl⟩
      rfl
    · rintro n rfl j hj hn
      exact instrEffect_xorLanes_getElem n s hj hn

end Sys2Proof.Machine
end

section
/-! PROOFS. Runs: after a reset, from the reset state without an INIT, one response per command, and the verdict
(R184, R190, R200, R201). -/

namespace Sys2Proof.Machine

/-! ## Reset and the first command -/

/-- R34: STATUS with every field 0 is the word 0. -/
theorem packStatus_cleared : packStatus false false .none = 0 := by decide

/-- Settles O40: a step at either kind of reset is the reset, which clears the fields of STATUS and leaves the responses. -/
theorem resetClearsStatus : Obligations.ResetClearsStatus := by
  refine ⟨fun s e rest hq he => ⟨_, step_of_reset hq he, rfl, rfl, rfl, packStatus_cleared, ?_,
    resetEngine_responses s⟩, rfl, rfl, rfl, packStatus_cleared, rfl⟩
  rw [resetEngine_input, hq, List.tail_cons]

/-- Settles O39: the first command takes the NOT_INITIALIZED fault, and a faulted engine keeps its tuple. -/
theorem firstCommandMustBeInit : Obligations.FirstCommandMustBeInit := by
  intro s c rest i k hq hf h0 hd hi hl hlen hcmd
  have hdata : (dataOperand s).length = dataLength i := by rw [dataOperand_of_input s hq, hlen]
  have hfirst : step s = .next (respond [] (s.recordFault .notInitialized)) :=
    (step_of_command hq hd).trans (exec_of_failed hf (firstCause_of_uninitialised hi hl h0 hdata))
  have hrest : (respond [] (s.recordFault .notInitialized)).input = rest := by simp [hq]
  obtain ⟨t, ht, harch, -, -⟩ :=
    runSteps_of_fault k (s := respond [] (s.recordFault .notInitialized)) rfl (hrest ▸ hcmd)
  simp only [archTuple, Prod.mk.injEq] at harch
  obtain ⟨-, hinit, hfault, hcause⟩ := harch
  exact ⟨t, (runSteps_succ k hfirst).trans ht, hfault, hcause, hinit.trans h0⟩

/-! ## One response per command -/

/-- Consuming one event gives one response if it is a command that reset does not cut off, and none otherwise (R61, R200). -/
theorem step_responses {s t : State} {e : HostEvent} {rest : List HostEvent} (hq : s.input = e :: rest)
    (h : step s = .next t) :
    ∃ new, t.responses = new ++ s.responses ∧ new.length = ([e].filter HostEvent.isCommand).length := by
  obtain ⟨u, hu, hcases⟩ := step_inversion s
  cases hu.symm.trans h
  rcases hcases with ⟨hidle, -⟩ | ⟨e', rest', hq', he, rfl⟩ | ⟨c, rest', hq', -, rfl⟩ |
    ⟨c, rest', cause, hq', -, -, rfl⟩ | ⟨c, rest', i, hq', -, -, -, rfl⟩
  · cases hidle.symm.trans hq
  · cases hq'.symm.trans hq
    exact ⟨[], resetEngine_responses s, by simp [he]⟩
  all_goals cases hq'.symm.trans hq
  · exact ⟨[_], rfl, rfl⟩
  · exact ⟨[_], rfl, rfl⟩
  · obtain ⟨-, -, -, hresp, -, -⟩ := instrEffect_frame i s
    exact ⟨[_], congrArg _ hresp, rfl⟩

/-- Settles O44: by induction on the pending events, one step for each. -/
theorem everyCommandAnsweredOnce : Obligations.EveryCommandAnsweredOnce := by
  intro s
  generalize hq : s.input = events
  induction events generalizing s with
  | nil => exact ⟨s, rfl, hq, rfl, [], rfl⟩
  | cons e rest ih =>
    obtain ⟨t, ht, -⟩ := step_inversion s
    obtain ⟨first, hfirst, hone⟩ := step_responses hq ht
    obtain ⟨u, hu, hin, hcount, later, hlater⟩ := ih t (by rw [step_input ht, hq, List.tail_cons])
    refine ⟨u, (runSteps_succ _ ht).trans hu, hin, ?_, later ++ first, by rw [hlater, hfirst, List.append_assoc]⟩
    have hsplit : ((e :: rest).filter HostEvent.isCommand).length =
        ([e].filter HostEvent.isCommand).length + (rest.filter HostEvent.isCommand).length := by
      rw [← List.length_append, ← List.filter_append, List.singleton_append]
    rw [hcount, hfirst, hsplit, List.length_append, hone]
    omega

/-! ## The verdict on a run -/

/-- Everything the verdict can be (R184): the end of a run in which FAULT is always 0, or the fault of the first state in
which it is 1. -/
theorem runVerdict_cases (k : Nat) (s : State) :
    (∃ t, runVerdict k s = .next t ∧ runSteps k s = .next t ∧
      ∀ j ≤ k, ∀ u, runSteps j s = .next u → u.fault = false) ∨
    (∃ j ≤ k, ∃ u, runVerdict k s = .fault (.commandFaulted u.cause) ∧ runSteps j s = .next u ∧ u.fault = true ∧
      ∀ i < j, ∀ v, runSteps i s = .next v → v.fault = false) := by
  induction k generalizing s with
  | zero =>
    cases hf : s.fault with
    | true => exact .inr ⟨0, le_rfl, s, runVerdict_of_fault 0 hf, rfl, hf, nofun⟩
    | false =>
      refine .inl ⟨s, runVerdict_zero hf, rfl, fun j hj u hu => ?_⟩
      cases Nat.le_zero.1 hj
      cases hu
      exact hf
  | succ k ih =>
    cases hf : s.fault with
    | true => exact .inr ⟨0, Nat.zero_le _, s, runVerdict_of_fault _ hf, rfl, hf, nofun⟩
    | false =>
      obtain ⟨t, ht, -⟩ := step_inversion s
      rcases ih t with ⟨u, hverdict, hend, hfree⟩ | ⟨j, hj, u, hverdict, hu, hfault, hfree⟩
      · refine .inl ⟨u, (runVerdict_succ k hf ht).trans hverdict, (runSteps_succ k ht).trans hend, fun j hj v hv => ?_⟩
        cases j with
        | zero => cases hv; exact hf
        | succ j => exact hfree j (Nat.le_of_succ_le_succ hj) v ((runSteps_succ j ht).symm.trans hv)
      · refine .inr ⟨j + 1, Nat.succ_le_succ hj, u, (runVerdict_succ k hf ht).trans hverdict,
          (runSteps_succ j ht).trans hu, hfault, fun i hi v hv => ?_⟩
        cases i with
        | zero => cases hv; exact hf
        | succ i => exact hfree i (Nat.lt_of_succ_lt_succ hi) v ((runSteps_succ i ht).symm.trans hv)

/-- R184: the verdict is a success exactly for the end of a run without a fault. -/
theorem runVerdict_eq_next_iff (k : Nat) (s t : State) :
    runVerdict k s = .next t ↔
      runSteps k s = .next t ∧ ∀ j ≤ k, ∀ u, runSteps j s = .next u → u.fault = false := by
  rcases runVerdict_cases k s with ⟨u, hverdict, hend, hfree⟩ | ⟨j, hj, u, hverdict, hu, hfault, -⟩
  · rw [hverdict, hend]
    exact (and_iff_left hfree).symm
  · rw [hverdict]
    refine iff_of_false nofun fun ⟨_, hfree⟩ => ?_
    cases (hfree j hj u hu).symm.trans hfault

/-- R184: the verdict is a fault exactly where the run's first state with FAULT = 1 has its cause. -/
theorem runVerdict_eq_fault_iff (k : Nat) (s : State) (c : Cause) :
    runVerdict k s = .fault (.commandFaulted c) ↔
      ∃ j ≤ k, ∃ u, runSteps j s = .next u ∧ u.fault = true ∧ u.cause = c ∧
        ∀ i < j, ∀ v, runSteps i s = .next v → v.fault = false := by
  constructor
  · intro h
    rcases runVerdict_cases k s with ⟨u, hverdict, -⟩ | ⟨j, hj, u, hverdict, hu, hfault, hfree⟩
    · cases hverdict.symm.trans h
    · cases hverdict.symm.trans h
      exact ⟨j, hj, u, hu, hfault, rfl, hfree⟩
  · rintro ⟨j, hj, u, hu, hfault, rfl, hfree⟩
    rcases runVerdict_cases k s with ⟨v, -, -, hnone⟩ | ⟨i, -, v, hverdict, hv, hfault', hfree'⟩
    · cases (hnone j hj u hu).symm.trans hfault
    · rcases Nat.lt_trichotomy i j with hlt | rfl | hgt
      · cases (hfree i hlt v hv).symm.trans hfault'
      · cases hv.symm.trans hu
        exact hverdict
      · cases (hfree' j hgt u hu).symm.trans hfault

/-- R184: no further step turns a fault into a success. -/
theorem runVerdict_add_of_fault (k m : Nat) {s : State} {r : Fault} (h : runVerdict k s = .fault r) :
    runVerdict (k + m) s = .fault r := by
  cases r with
  | commandFaulted c =>
    obtain ⟨j, hj, hfirst⟩ := (runVerdict_eq_fault_iff k s c).1 h
    exact (runVerdict_eq_fault_iff (k + m) s c).2 ⟨j, Nat.le_add_right_of_le hj, hfirst⟩

/-- Settles O41: the three lemmas above. -/
theorem faultedRunIsNoSuccess : Obligations.FaultedRunIsNoSuccess := fun k s =>
  ⟨runVerdict_eq_next_iff k s, runVerdict_eq_fault_iff k s, fun m _ => runVerdict_add_of_fault k m⟩

end Sys2Proof.Machine
end

section
/-! PROOFS. Two commands in a row: XOR_LANES twice, ABSORB of zeroes, EXTRACT twice, and EXTRACT's OUT XORed back
(R50, R140, R150, R162). -/

namespace Sys2Proof.Machine

/-! ## The data XOR -/

theorem xorDataLanes_xorDataLanes (a : Lanes) (data : List Byte) (n : Nat) :
    xorDataLanes (xorDataLanes a data n) data n = a := by
  apply Vector.ext
  intro i hi
  rw [xorDataLanes_getElem _ data n hi, xorDataLanes_getElem a data n hi]
  split
  · rw [BitVec.xor_assoc, BitVec.xor_self, BitVec.xor_zero]
  · rfl

theorem leNat_zeroes (k : Nat) : leNat (List.replicate k 0) = 0 := by
  induction k with
  | zero => rfl
  | succ k ih => rw [List.replicate_succ, leNat, ih]; rfl

theorem dataLane_zeroes (k i : Nat) : dataLane (List.replicate k 0) i = 0#64 := by
  rw [dataLane, memRead, List.drop_replicate, List.take_replicate, leNat_zeroes]

theorem xorDataLanes_zeroes (a : Lanes) (k n : Nat) : xorDataLanes a (List.replicate k 0) n = a := by
  apply Vector.ext
  intro i hi
  rw [xorDataLanes_getElem a _ n hi, dataLane_zeroes, BitVec.xor_zero, ite_self]

/-- R162: lane i of EXTRACT's OUT is lane i of S. -/
theorem dataLane_leadingBytes (a : Lanes) {n i : Nat} (hi : i < n) (hn : n ≤ 25) :
    dataLane (leadingBytes a n) i = a[i]'(by omega) :=
  lane_ext_bytes fun k hk => dataLane_leadingBytes_byte a n i k hi hn hk

/-- R162: the leading lanes' bytes, XORed into the zero state, are the leading lanes. -/
theorem xorDataLanes_leadingBytes (a : Lanes) {n i : Nat} (hn : n ≤ 25) (hi : i < 25) :
    (xorDataLanes (constLanes 0) (leadingBytes a n) n)[i] = if i < n then a[i] else 0 := by
  rw [xorDataLanes_getElem _ _ n hi, constLanes_getElem]
  split
  · rename_i h
    rw [dataLane_leadingBytes a h hn]
    exact BitVec.zero_xor
  · rfl

/-! ## The commands -/

section
variable {s : State} {n : Nat} (hf : s.fault = false) (hinit : s.initDone = true) (h1 : 1 ≤ n) (h25 : n ≤ 25)
include hf

/-- R80: an INIT that no check stops. -/
theorem step_init_of_passed {rest : List HostEvent} (hq : s.input = commandOf .init [] :: rest) :
    step s = .next (respond [] ((s.withLanes (constLanes 0)).markInitialised)) :=
  (step_of_commandOf hq (by decide)).trans (exec_init_of_passed hf (dataOperand_of_input s hq))

include hinit h1 h25

/-- R160: an EXTRACT that no check stops. -/
theorem step_extract_of_passed {rest : List HostEvent} (hq : s.input = commandOf (.extract n) [] :: rest) :
    step s = .next (respond (leadingBytes s.lanes n) s) :=
  (step_of_commandOf hq (Nat.lt_of_le_of_lt h25 (by decide))).trans
    (exec_extract_of_ready h1 h25 ⟨hf, hinit, congrArg List.length (dataOperand_of_input s hq)⟩)

end

/-! ## Two commands in a row -/

/-- Settles O52: no check stops either XOR_LANES, and the second undoes the first. -/
theorem xorLanesTwiceRestores : Obligations.XorLanesTwiceRestores := by
  intro s n data h1 h25 hd hf hinit hq
  have hfirst := step_xorLanes_of_passed hf hinit h1 h25 hd hq
  have hsecond := step_xorLanes_of_passed (s := respond [] (s.withLanes (xorDataLanes s.lanes data n))) (rest := [])
    (by simp [hf]) (by simp [hinit]) h1 h25 hd (by simp [hq, commandOf])
  refine ⟨_, (runSteps_succ 1 hfirst).trans (runSteps_succ 0 hsecond), ?_⟩
  simp [archTuple, xorDataLanes_xorDataLanes]

/-- Settles O53: XORing zeroes in changes nothing, so both steps write the permutation of S. -/
theorem absorbOfZeroesIsPermute : Obligations.AbsorbOfZeroesIsPermute := by
  intro s n h1 h25 hf hinit
  have habsorb := step_absorb_of_passed (s := { s with input := [commandOf (.absorb n) (List.replicate (8 * n) 0)] })
    hf hinit h1 h25 List.length_replicate (.inl rfl) rfl
  have hpermute := step_permute_of_passed (s := { s with input := [commandOf .permute []] }) hf hinit rfl
  rw [xorDataLanes_zeroes] at habsorb
  exact ⟨_, _, habsorb, hpermute, rfl, rfl⟩

/-- Settles O54: EXTRACT writes nothing that EXTRACT reads. -/
theorem extractIsIdempotent : Obligations.ExtractIsIdempotent := by
  intro s n h1 h25 hf hinit hq
  have hfirst := step_extract_of_passed hf hinit h1 h25 hq
  have hsecond := step_extract_of_passed (s := respond (leadingBytes s.lanes n) s) (rest := []) (by simp [hf])
    (by simp [hinit]) h1 h25 (by simp [hq, commandOf])
  exact ⟨_, _, (runSteps_succ 1 hfirst).trans (runSteps_succ 0 hsecond), rfl, rfl⟩

/-- Settles O55: INIT zeroes S, and the OUT's lanes are those of the first engine. -/
theorem extractXorRoundTrip : Obligations.ExtractXorRoundTrip := by
  intro s n h1 h25 hf hinit hq
  refine ⟨_, _, step_extract_of_passed hf hinit h1 h25 hq, rfl, fun u hu huq => ?_⟩
  have hlen : (leadingBytes s.lanes n).length = 8 * n := by rw [leadingBytes_length, Nat.min_eq_left h25]
  have hfirst := step_init_of_passed hu huq
  have hsecond := step_xorLanes_of_passed (s := respond [] (u.withLanes (constLanes 0)).markInitialised) (rest := [])
    (by simp [hu]) (by simp) h1 h25 hlen (by simp [huq, commandOf])
  exact ⟨_, (runSteps_succ 1 hfirst).trans (runSteps_succ 0 hsecond), by simp [hu],
    fun i hi => xorDataLanes_leadingBytes s.lanes h25 hi⟩

end Sys2Proof.Machine
end

section
/-! PROOFS. Several engines: each step is one engine's own, and all start reset (R57, R196). -/

namespace Sys2Proof.Machine

/-- A platform's step modifies the engine that steps, by what its step answers, and no other. -/
theorem platformStep_eq {next : State → State} (hnext : ∀ s, step s = .next (next s)) (p : Platform) (k : Nat) :
    platformStep p k = .next (p.modify k next) := by
  rw [platformStep, List.modify_eq_set_getElem?]
  cases p[k]? with
  | none => rfl
  | some s => simp [hnext]

/-- Settles O56: modifications of one list at two places. -/
theorem enginesAreIndependent : Obligations.EnginesAreIndependent := by
  intro p q r j k hjk hq hr
  choose next hnext _ using step_inversion
  cases (platformStep_eq hnext p j).symm.trans hq
  cases (platformStep_eq hnext _ k).symm.trans hr
  refine ⟨fun m hm => List.getElem?_modify_ne next p hm.symm, _, platformStep_eq hnext p k, ?_⟩
  rw [platformStep_eq hnext, List.modify_modify_ne next next p hjk]

/-- Settles O57: the platform's definition, and the reset values of one engine. -/
theorem everyEngineStartsReset : Obligations.EveryEngineStartsReset := by
  refine ⟨?_, rfl, fun k => ⟨rfl, rfl, rfl, packStatus_cleared, rfl, rfl⟩⟩
  rw [platformReset, List.length_map, List.length_range]

end Sys2Proof.Machine
end
